-- ==== Sys2Proof/Word.lean ====
section
/-! DEFINITION. The word types of the core (spec/00_scope.md R8, R10, R11): 8-bit bytes and registers,
16-bit index register, program counter and stack slots, 4-bit register selectors. Every value is unsigned. -/

namespace Sys2Proof

/-- An 8-bit cell or register (R8 `CELL_WIDTH`, R21). -/
abbrev Byte := BitVec 8

/-- A 16-bit value: an instruction word, `I`, `pc`, a stack slot (R24, R25, R26, R80). -/
abbrev Half := BitVec 16

/-- A register selector, the 4-bit fields x and y (R21, R81). -/
abbrev Reg := Fin 16

/-- VF, register 15, which is also the flag register (R22). -/
abbrev VF : Reg := 15

end Sys2Proof
end

