-- ==== Sys2Proof/Syntax.lean ====
section
/-! DEFINITION. The instructions: one constructor for each of the 34 rows of spec/opcode_table.json, in the
table's order (spec/30_encoding.md R82). The comment of each constructor gives its pattern and rule. -/

namespace Sys2Proof

/-- An instruction of the opcode map (R82). Register operands are 4-bit selectors, kk is an 8-bit immediate, nnn a
12-bit address, and the sprite height n a number of rows (at most 15: `Instr.WellFormed`). -/
inductive Instr where
  /-- `00E0` clear the display (R160) -/
  | cls
  /-- `00EE` return from subroutine (R101) -/
  | ret
  /-- `1nnn` jump (R102) -/
  | jp (nnn : BitVec 12)
  /-- `2nnn` call subroutine (R103) -/
  | call (nnn : BitVec 12)
  /-- `3xkk` skip if Vx = kk (R104) -/
  | seByte (x : Reg) (kk : Byte)
  /-- `4xkk` skip if Vx ≠ kk (R105) -/
  | sneByte (x : Reg) (kk : Byte)
  /-- `5xy0` skip if Vx = Vy (R106) -/
  | seReg (x y : Reg)
  /-- `6xkk` Vx = kk (R120) -/
  | ldByte (x : Reg) (kk : Byte)
  /-- `7xkk` Vx = Vx + kk, no flag (R121) -/
  | addByte (x : Reg) (kk : Byte)
  /-- `8xy0` Vx = Vy (R122) -/
  | ldReg (x y : Reg)
  /-- `8xy1` Vx = Vx OR Vy (R123) -/
  | orReg (x y : Reg)
  /-- `8xy2` Vx = Vx AND Vy (R124) -/
  | andReg (x y : Reg)
  /-- `8xy3` Vx = Vx XOR Vy (R125) -/
  | xorReg (x y : Reg)
  /-- `8xy4` add with carry into VF (R126) -/
  | addReg (x y : Reg)
  /-- `8xy5` subtract, swapping operands on underflow (R127) -/
  | sub (x y : Reg)
  /-- `8xy6` shift right by one; y is encoded and ignored (R128) -/
  | shr (x y : Reg)
  /-- `8xy7` reverse subtract (R129) -/
  | subn (x y : Reg)
  /-- `8xyE` shift left by one; y is encoded and ignored (R130) -/
  | shl (x y : Reg)
  /-- `9xy0` skip if Vx ≠ Vy (R107) -/
  | sneReg (x y : Reg)
  /-- `Annn` I = nnn (R140) -/
  | ldI (nnn : BitVec 12)
  /-- `Bnnn` jump to nnn + V0 (R108) -/
  | jpV0 (nnn : BitVec 12)
  /-- `Cxkk` Vx = random AND kk (R131) -/
  | rnd (x : Reg) (kk : Byte)
  /-- `Dxyn` draw an n-row sprite (R161) -/
  | drw (x y : Reg) (n : Nat)
  /-- `Ex9E` skip if key Vx is pressed (R180) -/
  | skp (x : Reg)
  /-- `ExA1` skip if key Vx is not pressed (R181) -/
  | sknp (x : Reg)
  /-- `Fx07` Vx = DT (R182) -/
  | ldVxDT (x : Reg)
  /-- `Fx0A` wait for a key (R183) -/
  | ldVxK (x : Reg)
  /-- `Fx15` DT = Vx (R186) -/
  | ldDT (x : Reg)
  /-- `Fx18` ST = Vx (R187) -/
  | ldST (x : Reg)
  /-- `Fx1E` I = I + Vx (R141) -/
  | addI (x : Reg)
  /-- `Fx29` I = address of the glyph of digit Vx (R142) -/
  | ldF (x : Reg)
  /-- `Fx33` store the decimal digits of Vx (R143) -/
  | ldB (x : Reg)
  /-- `Fx55` store V0..Vx (R144) -/
  | storeRegs (x : Reg)
  /-- `Fx65` load V0..Vx (R145) -/
  | loadRegs (x : Reg)
  deriving DecidableEq, Repr

end Sys2Proof
end

