-- ==== Sys2Proof/Decode.lean ====
section
/-! DEFINITION. The decoder and the encoder (spec/30_encoding.md R73, R80 to R90). The decoder is total on every
16-bit word: a word is one instruction, one soft-invalid word or one fatal-invalid word (R83, R89, R90). It follows
R73: the top nibble selects a group; groups 0x0, 0xE and 0xF go on to the low byte, group 0x8 to the low nibble.
The encoder is written from the same patterns, with 0 in the don't-care bits of R87. -/

namespace Sys2Proof

/-! ## Words and bytes (R52, R80) -/

/-- Two bytes as the big-endian word they make: the byte at the lower address in bits 15..8 (R52). -/
def wordOfBytes (hi lo : Byte) : Half := hi ++ lo

/-- The bytes of a word in memory order, most significant first (R80). -/
def bytesOfWord (w : Half) : List Byte := [w.extractLsb' 8 8, w.extractLsb' 0 8]

/-! ## Fields (R81) -/

/-- a = w[15:12], the group. -/
def fieldA (w : Half) : Nat := (w.extractLsb' 12 4).toNat

/-- x = w[11:8]. -/
def fieldX (w : Half) : Reg := (w.extractLsb' 8 4).toFin

/-- y = w[7:4]. -/
def fieldY (w : Half) : Reg := (w.extractLsb' 4 4).toFin

/-- n = w[3:0]. -/
def fieldN (w : Half) : Nat := (w.extractLsb' 0 4).toNat

/-- kk = w[7:0]. -/
def fieldKK (w : Half) : Byte := w.extractLsb' 0 8

/-- nnn = w[11:0]. -/
def fieldNNN (w : Half) : BitVec 12 := w.extractLsb' 0 12

/-! ## Decoding -/

/-- What a word is (R89): one instruction, or one of the two classes of invalid words of R83. -/
inductive Decoded where
  | insn (i : Instr)
  | softInvalid
  | fatalInvalid
  deriving DecidableEq, Repr

/-- Group 0x0 dispatches on the low byte; bits 11..8 are ignored (R87, D17); the rest is fatal (R83). -/
def decodeGroup0 (w : Half) : Decoded :=
  match (fieldKK w).toNat with
  | 0xE0 => .insn .cls
  | 0xEE => .insn .ret
  | _ => .fatalInvalid

/-- Group 0x8 dispatches on the low nibble; the rest is soft (R83). -/
def decodeGroup8 (w : Half) : Decoded :=
  match fieldN w with
  | 0x0 => .insn (.ldReg (fieldX w) (fieldY w))
  | 0x1 => .insn (.orReg (fieldX w) (fieldY w))
  | 0x2 => .insn (.andReg (fieldX w) (fieldY w))
  | 0x3 => .insn (.xorReg (fieldX w) (fieldY w))
  | 0x4 => .insn (.addReg (fieldX w) (fieldY w))
  | 0x5 => .insn (.sub (fieldX w) (fieldY w))
  | 0x6 => .insn (.shr (fieldX w) (fieldY w))
  | 0x7 => .insn (.subn (fieldX w) (fieldY w))
  | 0xE => .insn (.shl (fieldX w) (fieldY w))
  | _ => .softInvalid

/-- Group 0xE dispatches on the low byte; the rest is soft (R83). -/
def decodeGroupE (w : Half) : Decoded :=
  match (fieldKK w).toNat with
  | 0x9E => .insn (.skp (fieldX w))
  | 0xA1 => .insn (.sknp (fieldX w))
  | _ => .softInvalid

/-- Group 0xF dispatches on the low byte; the rest is fatal (R83). -/
def decodeGroupF (w : Half) : Decoded :=
  match (fieldKK w).toNat with
  | 0x07 => .insn (.ldVxDT (fieldX w))
  | 0x0A => .insn (.ldVxK (fieldX w))
  | 0x15 => .insn (.ldDT (fieldX w))
  | 0x18 => .insn (.ldST (fieldX w))
  | 0x1E => .insn (.addI (fieldX w))
  | 0x29 => .insn (.ldF (fieldX w))
  | 0x33 => .insn (.ldB (fieldX w))
  | 0x55 => .insn (.storeRegs (fieldX w))
  | 0x65 => .insn (.loadRegs (fieldX w))
  | _ => .fatalInvalid

/-- R73, R82: the word's group, then its sub-dispatch. The last line is group 0xF, the only value left of a 4-bit
field (R88: no word is invalid for its top nibble alone). -/
def decodeWord (w : Half) : Decoded :=
  match fieldA w with
  | 0x0 => decodeGroup0 w
  | 0x1 => .insn (.jp (fieldNNN w))
  | 0x2 => .insn (.call (fieldNNN w))
  | 0x3 => .insn (.seByte (fieldX w) (fieldKK w))
  | 0x4 => .insn (.sneByte (fieldX w) (fieldKK w))
  | 0x5 => .insn (.seReg (fieldX w) (fieldY w))
  | 0x6 => .insn (.ldByte (fieldX w) (fieldKK w))
  | 0x7 => .insn (.addByte (fieldX w) (fieldKK w))
  | 0x8 => decodeGroup8 w
  | 0x9 => .insn (.sneReg (fieldX w) (fieldY w))
  | 0xA => .insn (.ldI (fieldNNN w))
  | 0xB => .insn (.jpV0 (fieldNNN w))
  | 0xC => .insn (.rnd (fieldX w) (fieldKK w))
  | 0xD => .insn (.drw (fieldX w) (fieldY w) (fieldN w))
  | 0xE => decodeGroupE w
  | _ => decodeGroupF w

/-- Why bytes give no instruction. -/
inductive DecodeReject where
  /-- fewer than the two bytes every instruction has (R80) -/
  | truncated
  /-- a soft-invalid word (R83) -/
  | softInvalid (w : Half)
  /-- a fatal-invalid word (R83) -/
  | fatalInvalid (w : Half)
  deriving DecidableEq, Repr

/-- The decoder on bytes: the instruction the first two bytes hold, with the rest of the bytes. -/
def decodeBytes : List Byte → Except DecodeReject (Instr × List Byte)
  | hi :: lo :: rest =>
    match decodeWord (wordOfBytes hi lo) with
    | .insn i => .ok (i, rest)
    | .softInvalid => .error (.softInvalid (wordOfBytes hi lo))
    | .fatalInvalid => .error (.fatalInvalid (wordOfBytes hi lo))
  | [_] => .error .truncated
  | [] => .error .truncated

/-- The host's question: the instruction the decoder reads from the `nbits`-bit word `w`, numbered as
spec/opcode_table.json numbers it, laid out big-endian as the hardware stores it (R80). -/
def decodeTableWord (nbits w : Nat) : Option Instr :=
  match decodeBytes (bytesOfWord (BitVec.ofNat 16 (w % 2 ^ nbits))) with
  | .ok (i, _) => some i
  | .error _ => none

/-! ## Encoding (R80, R82) -/

/-- Format A: a ++ nnn. -/
def wordA (a : BitVec 4) (nnn : BitVec 12) : Half := a ++ nnn

/-- Formats XK, XS and Z: a ++ x ++ low byte. -/
def wordXK (a : BitVec 4) (x : Reg) (kk : Byte) : Half := a ++ (BitVec.ofFin x : BitVec 4) ++ kk

/-- Formats XY and XYN: a ++ x ++ y ++ low nibble. -/
def wordXYN (a : BitVec 4) (x y : Reg) (n : BitVec 4) : Half :=
  a ++ (BitVec.ofFin x : BitVec 4) ++ (BitVec.ofFin y : BitVec 4) ++ n

/-- The word of an instruction. Don't-care bits (R87) are 0. -/
def encode : Instr → Half
  | .cls => wordXK 0x0 0 0xE0
  | .ret => wordXK 0x0 0 0xEE
  | .jp nnn => wordA 0x1 nnn
  | .call nnn => wordA 0x2 nnn
  | .seByte x kk => wordXK 0x3 x kk
  | .sneByte x kk => wordXK 0x4 x kk
  | .seReg x y => wordXYN 0x5 x y 0x0
  | .ldByte x kk => wordXK 0x6 x kk
  | .addByte x kk => wordXK 0x7 x kk
  | .ldReg x y => wordXYN 0x8 x y 0x0
  | .orReg x y => wordXYN 0x8 x y 0x1
  | .andReg x y => wordXYN 0x8 x y 0x2
  | .xorReg x y => wordXYN 0x8 x y 0x3
  | .addReg x y => wordXYN 0x8 x y 0x4
  | .sub x y => wordXYN 0x8 x y 0x5
  | .shr x y => wordXYN 0x8 x y 0x6
  | .subn x y => wordXYN 0x8 x y 0x7
  | .shl x y => wordXYN 0x8 x y 0xE
  | .sneReg x y => wordXYN 0x9 x y 0x0
  | .ldI nnn => wordA 0xA nnn
  | .jpV0 nnn => wordA 0xB nnn
  | .rnd x kk => wordXK 0xC x kk
  | .drw x y n => wordXYN 0xD x y (BitVec.ofNat 4 n)
  | .skp x => wordXK 0xE x 0x9E
  | .sknp x => wordXK 0xE x 0xA1
  | .ldVxDT x => wordXK 0xF x 0x07
  | .ldVxK x => wordXK 0xF x 0x0A
  | .ldDT x => wordXK 0xF x 0x15
  | .ldST x => wordXK 0xF x 0x18
  | .addI x => wordXK 0xF x 0x1E
  | .ldF x => wordXK 0xF x 0x29
  | .ldB x => wordXK 0xF x 0x33
  | .storeRegs x => wordXK 0xF x 0x55
  | .loadRegs x => wordXK 0xF x 0x65

/-- The bytes of an instruction in memory order (R80). -/
def encodeBytes (i : Instr) : List Byte := bytesOfWord (encode i)

/-! ## The opcode map as the spec prints it (R82) -/

/-- One row of R82: a word `w` is the row's instruction exactly when `w &&& mask = pattern`. -/
structure OpcodeRow where
  mask    : Half
  pattern : Half
  deriving DecidableEq, Repr

/-- The row of R82 an instruction belongs to, mask and match copied from the spec's table. -/
def Instr.row : Instr → OpcodeRow
  | .cls => ⟨0xF0FF, 0x00E0⟩
  | .ret => ⟨0xF0FF, 0x00EE⟩
  | .jp _ => ⟨0xF000, 0x1000⟩
  | .call _ => ⟨0xF000, 0x2000⟩
  | .seByte _ _ => ⟨0xF000, 0x3000⟩
  | .sneByte _ _ => ⟨0xF000, 0x4000⟩
  | .seReg _ _ => ⟨0xF000, 0x5000⟩
  | .ldByte _ _ => ⟨0xF000, 0x6000⟩
  | .addByte _ _ => ⟨0xF000, 0x7000⟩
  | .ldReg _ _ => ⟨0xF00F, 0x8000⟩
  | .orReg _ _ => ⟨0xF00F, 0x8001⟩
  | .andReg _ _ => ⟨0xF00F, 0x8002⟩
  | .xorReg _ _ => ⟨0xF00F, 0x8003⟩
  | .addReg _ _ => ⟨0xF00F, 0x8004⟩
  | .sub _ _ => ⟨0xF00F, 0x8005⟩
  | .shr _ _ => ⟨0xF00F, 0x8006⟩
  | .subn _ _ => ⟨0xF00F, 0x8007⟩
  | .shl _ _ => ⟨0xF00F, 0x800E⟩
  | .sneReg _ _ => ⟨0xF000, 0x9000⟩
  | .ldI _ => ⟨0xF000, 0xA000⟩
  | .jpV0 _ => ⟨0xF000, 0xB000⟩
  | .rnd _ _ => ⟨0xF000, 0xC000⟩
  | .drw _ _ _ => ⟨0xF000, 0xD000⟩
  | .skp _ => ⟨0xF0FF, 0xE09E⟩
  | .sknp _ => ⟨0xF0FF, 0xE0A1⟩
  | .ldVxDT _ => ⟨0xF0FF, 0xF007⟩
  | .ldVxK _ => ⟨0xF0FF, 0xF00A⟩
  | .ldDT _ => ⟨0xF0FF, 0xF015⟩
  | .ldST _ => ⟨0xF0FF, 0xF018⟩
  | .addI _ => ⟨0xF0FF, 0xF01E⟩
  | .ldF _ => ⟨0xF0FF, 0xF029⟩
  | .ldB _ => ⟨0xF0FF, 0xF033⟩
  | .storeRegs _ => ⟨0xF0FF, 0xF055⟩
  | .loadRegs _ => ⟨0xF0FF, 0xF065⟩

/-- `w` is a word of the row (R82). -/
abbrev OpcodeRow.Matches (r : OpcodeRow) (w : Half) : Prop := w &&& r.mask = r.pattern

end Sys2Proof
end

