-- ==== Sys2Proof/Config.lean ====
section
/-! DEFINITION. The parameters the spec leaves open (spec/00_scope.md R9) and the free values.
The types of the parameters stand here; their decided values stand in Machine/Creation.lean
(`Params.decided`), and `FONT_IMAGE` is an argument of `Machine.State.create`. -/

namespace Sys2Proof

/-- `INVALID_POLICY` (R9, D14): what a soft-invalid word does. `original` stalls (R84), `unified` halts (R86). -/
inductive InvalidPolicy where
  | original
  | unified
  deriving DecidableEq, Repr

/-- `SUBN_UNDERFLOW` (R9, D13): the result of `8xy7` when Vx > Vy. -/
inductive SubnUnderflow where
  | wrap
  | swap
  deriving DecidableEq, Repr

/-- `VF_ALIAS` (R9, D12): what a flag-setting instruction leaves when VF is one of its operands. -/
inductive VfAlias where
  | sequential
  | unspecified
  deriving DecidableEq, Repr

/-- `SPRITE_BIT_ORDER` (R9, D4): which bit of a sprite byte is column offset 0 (R163). -/
inductive SpriteBitOrder where
  | msbLeft
  | lsbLeft
  deriving DecidableEq, Repr

/-- `RESET_REGS` (R9, D1): under `zero` the general registers, I, DT, ST and the stack slots are 0 at creation; under
`unwritten` they hold no value until they are written, and a read before that faults (R38; log 3). -/
inductive ResetRegs where
  | zero
  | unwritten
  deriving DecidableEq, Repr

/-- The parameters, but for the font and the random bytes, fixed when the core is built (R9, R35, R39). -/
structure Params where
  invalidPolicy  : InvalidPolicy
  subnUnderflow  : SubnUnderflow
  vfAlias        : VfAlias
  spriteBitOrder : SpriteBitOrder
  resetRegs      : ResetRegs
  deriving DecidableEq, Repr

/-- The free bytes of the model: the n-th byte drawn from the random-byte provider of `Cxkk` (R131, D21: "a free
draw, one byte per executed `Cxkk`, under no law") or written by `VF_ALIAS = Unspecified` (R133). It has no body, so
nothing can be proved of its value: a claim about it holds whatever the bytes are (log 2). -/
opaque Config.freeByte : Nat → Byte

end Sys2Proof
end

