-- ==== Sys2Proof/Machine/Creation.lean ====
section
/-! DEFINITION. The values of creation, the only reset the core has (spec/10_state.md R38, spec/70_reset_and_hazards.md
R240), and the decided values of the parameters (spec/00_scope.md R9). They stand in this file so that a later repair
may mend them; `State.reset` only puts them together. -/

namespace Sys2Proof

/-- The decided values of R9: `INVALID_POLICY = Original` (D14), `SUBN_UNDERFLOW = Wrap` (D13), `VF_ALIAS = Sequential`
(D12), `SPRITE_BIT_ORDER = MsbLeft` (D4, PRESUMED), `RESET_REGS = Zero` (D1). Logs 3, 6 to 9. -/
def Params.decided : Params :=
  { invalidPolicy := .original, subnUnderflow := .wrap, vfAlias := .sequential, spriteBitOrder := .msbLeft,
    resetRegs := .zero }

namespace Machine

/-- Which registers hold no value yet under `RESET_REGS = Unwritten` (R38, R247: "each of V0..VF, I and DT"). ST and the
stack slots need no mark: nothing reads ST (R30), and "an unwritten stack slot is never read" (R38). Log 3. -/
structure Unwritten where
  V  : Vector Bool 16
  I  : Bool
  DT : Bool
  deriving DecidableEq, Repr

/-- How far the host is in the boot order of R247: created, loaded, stepping. The model's own record (log 26). -/
inductive Stage where
  | fresh
  | loaded
  | stepped
  deriving DecidableEq, Repr

end Machine

namespace Machine.Creation

/-- V0..VF are 0 (R38, D1; log 3). -/
def regs : Vector Byte 16 := Vector.replicate 16 0

/-- I is 0 (R38, D1; log 3). -/
def index : Half := 0

/-- pc is 0x200 (R38, R241: "program counter at 0x200"). -/
def entry : Half := 0x200

/-- The stack slots are 0 (R38, D1; log 3). -/
def stack : Vector Half 16 := Vector.replicate 16 0

/-- SP is 0 (R38, D1; log 3). -/
def stackPointer : Fin 17 := 0

/-- DT is 0 (R38, D1; log 3). -/
def delay : Byte := 0

/-- ST is 0 (R38, D1; log 3). -/
def sound : Byte := 0

/-- The display is blank (R38, D2; log 4). -/
def display : Vector (Vector Bool 64) 32 := Vector.replicate 32 (Vector.replicate 64 false)

/-- The draw flag is clear (R38, D2; log 4). -/
def drawFlag : Bool := false

/-- No key is pressed (R38, D2; log 4). -/
def keys : Vector Bool 16 := Vector.replicate 16 false

/-- No free byte has been drawn. DESIGN CHOICE, log 2. -/
def draws : Nat := 0

/-- Which registers hold no value at creation: none under `Zero`, all under `Unwritten` (R38, D1; log 3). -/
def unwritten (r : ResetRegs) : Unwritten :=
  match r with
  | .zero => { V := Vector.replicate 16 false, I := false, DT := false }
  | .unwritten => { V := Vector.replicate 16 true, I := true, DT := true }

/-- Nothing was loaded and no step was taken (R240, R247; log 26). -/
def stage : Stage := .fresh

end Machine.Creation

end Sys2Proof
end

