-- ==== Sys2Proof/Machine/Memory.lean ====
section
/-! DEFINITION. Memory: 4096 independent byte cells, addresses 0..4095 (spec/10_state.md R27, spec/20_memory.md
R50). It is held as the list of the cells that differ from their content at creation, addresses rising. -/

namespace Sys2Proof.Machine

/-- The decided `FONT_IMAGE`: the conventional CHIP-8 font, 16 glyphs of 5 bytes (R28, D3).
PRESUMED (general knowledge, as the spec marks it), log 5. -/
def fontImage : List Byte :=
  [0xF0, 0x90, 0x90, 0x90, 0xF0] ++   -- 0
  [0x20, 0x60, 0x20, 0x20, 0x70] ++   -- 1
  [0xF0, 0x10, 0xF0, 0x80, 0xF0] ++   -- 2
  [0xF0, 0x10, 0xF0, 0x10, 0xF0] ++   -- 3
  [0x90, 0x90, 0xF0, 0x10, 0x10] ++   -- 4
  [0xF0, 0x80, 0xF0, 0x10, 0xF0] ++   -- 5
  [0xF0, 0x80, 0xF0, 0x90, 0xF0] ++   -- 6
  [0xF0, 0x10, 0x20, 0x40, 0x40] ++   -- 7
  [0xF0, 0x90, 0xF0, 0x90, 0xF0] ++   -- 8
  [0xF0, 0x90, 0xF0, 0x10, 0xF0] ++   -- 9
  [0xF0, 0x90, 0xF0, 0x90, 0x90] ++   -- A
  [0xE0, 0x90, 0xE0, 0x90, 0xE0] ++   -- B
  [0xF0, 0x80, 0x80, 0x80, 0xF0] ++   -- C
  [0xE0, 0x90, 0x90, 0x90, 0xE0] ++   -- D
  [0xF0, 0x80, 0xF0, 0x80, 0xF0] ++   -- E
  [0xF0, 0x80, 0xF0, 0x80, 0x80]      -- F

/-- What an unlisted address reads as: its content at creation with the decided font, that is the font at
0x000..0x04F and 0 elsewhere (R38: "memory zeroed except font data at 0x000"). -/
def background (a : Nat) : Byte := (fontImage[a]?).getD 0

/-- Memory: the cells that differ from `background`. -/
abbrev Memory := List Host.Cell

namespace Memory

/-- The canonical form from address `lo` on: addresses strictly rising, below 4096, no entry equal to what an
unlisted address reads as. -/
def wfFrom : Nat → Memory → Bool
  | _, [] => true
  | lo, c :: rest => decide (lo ≤ c.1) && decide (c.1 < 4096) && (c.2 != background c.1) && wfFrom (c.1 + 1) rest

/-- The canonical form: equal memories are equal lists. -/
def wf (m : Memory) : Bool := wfFrom 0 m

/-- `MemRead(a, 1)` (R13): the byte at `a`. Callers check the range first (R55). -/
def read (m : Memory) (a : Nat) : Byte := (m.lookup a).getD (background a)

/-- The cells without the one at `a`. -/
def erase (m : Memory) (a : Nat) : Memory := m.filter (fun c => c.1 != a)

/-- The cells with one for `a` put in its place. -/
def insertCell (a : Nat) (b : Byte) : Memory → Memory
  | [] => [(a, b)]
  | c :: rest => if a < c.1 then (a, b) :: c :: rest else c :: insertCell a b rest

/-- `MemWrite(a, 1, b)` (R13). Callers check the range first (R55); there is no cell at 4096 or above to write. -/
def write (m : Memory) (a : Nat) (b : Byte) : Memory :=
  if a < 4096 then
    if b = background a then m.erase a else insertCell a b (m.erase a)
  else m

/-- Bytes written from `a` up, in ascending order (R61). -/
def writeBytes (m : Memory) (a : Nat) : List Byte → Memory
  | [] => m
  | b :: bs => writeBytes (m.write a b) (a + 1) bs

/-- The `n` bytes from `a` up. -/
def readBytes (m : Memory) (a n : Nat) : List Byte := (List.range n).map fun j => m.read (a + j)

end Memory

end Sys2Proof.Machine
end

