-- ==== Sys2Proof/Machine/State.lean ====
section
/-! DEFINITION. The state of the core, one record (spec/10_state.md R20), its faults (spec/60_exceptions.md R202) and
the state at creation (R38). -/

namespace Sys2Proof.Machine

/-- The kind of a memory access in a `MemoryOutOfRange` record (R55). -/
inductive AccessKind where
  | fetch
  | read
  | write
  deriving DecidableEq, Repr

/-- A register that may hold no value under `RESET_REGS = Unwritten` (R38, R247). -/
inductive RegName where
  | V (r : Reg)
  | I
  | DT
  deriving DecidableEq, Repr

/-- The five faults of R202 and the one of R38, each with the info it records. A fault is written into `status` by
`raise` (R200): the step that takes it answers a NEXT state, and no step of this model answers `Outcome.fault` (log 11).
All are what the spec's rules say, so they are safe: where the original software would go on, the core of the spec
halts. -/
inductive Fault where
  /-- code 1: raised by `cycle` on a fatal-invalid word (R85), and on a soft-invalid word under
  `INVALID_POLICY = Unified` (R86). Safe. -/
  | invalidOpcode (w pc : Half)
  /-- code 2: raised by the fetch (R72), by `Dxyn` and `Fx65` (read), by `Fx33` and `Fx55` (write) (R55);
  `addr` is the lowest bad address, a mathematical integer. Safe. -/
  | memoryOutOfRange (kind : AccessKind) (addr : Nat) (pc : Half)
  /-- code 3: raised by `2nnn` with SP = 16 (R103). Safe. -/
  | stackOverflow (pc : Half)
  /-- code 4: raised by `00EE` with SP = 0 (R101). Safe. -/
  | stackUnderflow (pc : Half)
  /-- code 5: raised by `Ex9E` and `ExA1` with Vx > 15 (R188). Safe. -/
  | keyIndexOutOfRange (value : Byte) (pc : Half)
  /-- no code in R202: raised by `runWord` under `RESET_REGS = Unwritten` alone, when the fetched instruction reads a
  register that nothing has written: "reading one before it is written faults as unmodelled" (R38, D1,
  spec/93_implementation_defined.md item 13; log 3). Never raised under the decided `Zero`. Safe. -/
  | unwrittenRead (r : RegName) (pc : Half)
  deriving DecidableEq, Repr

/-- What the model has no move for: two breaches of the host's contract. No meaning is refused, and no step. -/
inductive Refusal where
  /-- An instruction without a meaning; no arm of `exec` answers it in this model. Safe. -/
  | notModelled (mnemonic : String)
  /-- Raised by `keyDown` and `keyUp` when the host passes a key index above 15: "a caller contract violation"
  (R223, R227, D22). Safe. -/
  | keyIndexContract (k : Nat)
  /-- Raised by `loadProgram` once a program was loaded or a step was taken (R227, R246, R247, D23). Safe. -/
  | loadNotOnFreshState
  deriving DecidableEq, Repr

/-- Whether the core can still step (R37). -/
inductive Status where
  | running
  | halted (f : Fault)
  deriving DecidableEq, Repr

/-- 32 rows of 64 one-bit pixels, addressed row first (R31). -/
abbrev Display := Vector (Vector Bool 64) 32

/-- The state store (R20), under the spec's names, and the model's own fields from `params` on. -/
structure State where
  /-- 4096 bytes (R27) -/
  mem      : Memory
  /-- V0..VF (R21) -/
  V        : Vector Byte 16
  /-- the index register (R24) -/
  I        : Half
  /-- the program counter (R25) -/
  pc       : Half
  /-- 16 return-address slots (R26) -/
  stack    : Vector Half 16
  /-- 0..16, the slots in use (R26) -/
  SP       : Fin 17
  /-- the delay timer (R29) -/
  DT       : Byte
  /-- the sound timer (R30) -/
  ST       : Byte
  /-- the display (R31) -/
  disp     : Display
  /-- the draw-requested flag (R32) -/
  drawFlag : Bool
  /-- the key states, true meaning pressed (R33) -/
  key      : Vector Bool 16
  /-- `Running` or `Halted(fault, info)` (R37) -/
  status   : Status
  /-- the model's own: the parameters of R9, read by steps and never written (log 1) -/
  params   : Params
  /-- the model's own: how many free bytes have been drawn (log 2) -/
  draws    : Nat
  /-- the model's own: which registers hold no value yet, none under `RESET_REGS = Zero` (R38, log 3) -/
  unwritten : Unwritten
  /-- the model's own: whether a program was loaded and a step taken, read by `load_program` alone (R246, R247, log 26) -/
  stage    : Stage
  deriving DecidableEq, Repr

/-- The core at creation (R38, R240), with the decided parameters: memory lists nothing, since an unlisted
address reads as its content at creation. -/
def State.reset : State :=
  { mem := [], V := Creation.regs, I := Creation.index, pc := Creation.entry, stack := Creation.stack,
    SP := Creation.stackPointer, DT := Creation.delay, ST := Creation.sound, disp := Creation.display,
    drawFlag := Creation.drawFlag, key := Creation.keys, status := .running, params := Params.decided,
    draws := Creation.draws, unwritten := Creation.unwritten Params.decided.resetRegs, stage := Creation.stage }

end Sys2Proof.Machine
end

