-- ==== Sys2Proof/Machine/Ops.lean ====
section
/-! DEFINITION. The named operations over registers, memory, stack, display and keys; the end of a step; taking a
fault; free bytes. Every instruction's meaning is written over these (spec/00_scope.md R12 to R16). -/

namespace Sys2Proof.Machine

/-- What a meaning and a step answer. -/
abbrev Answer := Host.Outcome State Fault Refusal

namespace State

/-! ## Creation with given parameters (R9, R38, R240) -/

/-- Creation with a given `FONT_IMAGE` (its first 80 bytes, at 0x000..0x04F) and given parameters. -/
def create (p : Params) (font : List Byte) : State :=
  { reset with
    mem := Memory.writeBytes [] 0 (font.take 80), params := p, unwritten := Creation.unwritten p.resetRegs }

/-! ## Registers without a value (R38, `RESET_REGS = Unwritten`; log 3) -/

/-- The register holds no value yet. -/
def lacks (s : State) (r : RegName) : Bool :=
  match r with
  | .V r => s.unwritten.V[r]
  | .I => s.unwritten.I
  | .DT => s.unwritten.DT

/-! ## Registers (R12, R21) -/

/-- `V[r]`. -/
def reg (s : State) (r : Reg) : Byte := s.V[r]

/-- `V[r] <- b`. The register then holds a value. -/
def setReg (s : State) (r : Reg) (b : Byte) : State :=
  { s with V := s.V.set r.val b r.isLt, unwritten.V := s.unwritten.V.set r.val false r.isLt }

/-- V0..Vx, in order, the bytes of `Fx55` (R144). -/
def regsThrough (s : State) (x : Reg) : List Byte := s.V.toList.take (x.val + 1)

/-- V0..Vx written at once, to their values in `v`; those registers then hold a value. -/
def setRegsThrough (s : State) (x : Reg) (v : Vector Byte 16) : State :=
  { s with
    V := Vector.ofFn fun j => if j ≤ x then v[j] else s.V[j]
    unwritten.V := Vector.ofFn fun j => if j ≤ x then false else s.unwritten.V[j] }

/-- The bytes `MemRead(I + j, 1)` for the sixteen registers j (R145). Memory does not change, so the order of the loads
does not show. -/
def bytesAtI (s : State) : Vector Byte 16 := Vector.ofFn fun j => s.mem.read (s.I.toNat + j.val)

/-- `I <- a`. -/
def setI (s : State) (a : Half) : State := { s with I := a, unwritten.I := false }

/-- `DT <- b`, by an instruction. -/
def setDT (s : State) (b : Byte) : State := { s with DT := b, unwritten.DT := false }

/-- `ST <- b`. -/
def setST (s : State) (b : Byte) : State := { s with ST := b }

/-! ## Memory (R13, R53) -/

/-- The byte at address `a`. -/
def byteAt (s : State) (a : Nat) : Byte := s.mem.read a

/-- Bytes stored from address `a` up, ascending (R61). -/
def storeBytes (s : State) (a : Nat) (bs : List Byte) : State := { s with mem := s.mem.writeBytes a bs }

/-! ## The stack (R26) -/

/-- `stack[SP] <- a; SP <- SP + 1`, for SP < 16 (R103). -/
def push (s : State) (a : Half) (h : s.SP.val < 16) : State :=
  { s with stack := s.stack.set s.SP.val a h, SP := ⟨s.SP.val + 1, by omega⟩ }

/-- The most recent return address `stack[SP - 1]`, for SP > 0 (R101). -/
def top (s : State) (h : 0 < s.SP.val) : Half := s.stack[s.SP.val - 1]'(by have := s.SP.isLt; omega)

/-- `SP <- SP - 1`; the slot keeps its value (R26, D20). -/
def pop (s : State) : State := { s with SP := ⟨s.SP.val - 1, by have := s.SP.isLt; omega⟩ }

/-! ## The display (R31, R32) -/

/-- `disp[r][c]`. -/
def pixel (s : State) (r : Fin 32) (c : Fin 64) : Bool := s.disp[r][c]

/-- A display instruction's new pixels, with `drawFlag <- 1` (R32, D19). -/
def redraw (s : State) (d : Display) : State := { s with disp := d, drawFlag := true }

/-! ## Keys (R33) -/

/-- `key[k]`. -/
def keyDown? (s : State) (k : Fin 16) : Bool := s.key[k]

/-- The lowest pressed key, if any (R184). -/
def lowestKey (s : State) : Option (Fin 16) := (List.finRange 16).find? fun k => s.keyDown? k

/-! ## Free bytes (R131, R133, D21; log 2) -/

/-- The next free byte. -/
def freeByte (s : State) : Byte := Config.freeByte s.draws

/-- The state after one free byte was drawn. -/
def drawn (s : State) : State := { s with draws := s.draws + 1 }

/-- `V[r] <- any value`. -/
def setRegFree (s : State) (r : Reg) : State := (s.setReg r s.freeByte).drawn

/-! ## The end of a step -/

/-- A step was taken: no load has a move any more (R246; log 26). -/
def stepped (s : State) : State := { s with stage := .stepped }

/-- One tick of the delay timer: down by 1 if it is greater than 0 (R29, R75). It is no read in the sense of
`RESET_REGS`, and a timer without a value stays without one (log 3). -/
def tickDown (d : Byte) : Byte := if d = 0 then 0 else d - 1

/-- `pc <- next_pc`, then the tick (R70, R74, R75). -/
def retire (s : State) (nextPc : Half) : State := { s with pc := nextPc, DT := tickDown s.DT }

/-- `status <- Halted(f)` (R200). -/
def halt (s : State) (f : Fault) : State := { s with status := .halted f }

end State

/-- The spec's numbers for the faults (R202, D29). -/
def Fault.code : Fault → Option Nat
  | .invalidOpcode _ _ => some 1
  | .memoryOutOfRange _ _ _ => some 2
  | .stackOverflow _ => some 3
  | .stackUnderflow _ => some 4
  | .keyIndexOutOfRange _ _ => some 5
  | .unwrittenRead _ _ => none

/-- The end of an executed or stalled step: `next_pc` is stored and the delay timer ticks (R74, R75). -/
def complete (nextPc : Half) (s : State) : Answer := .next (s.retire nextPc)

/-- The end of a step whose rule names no `next_pc`: it is `pc + 2` (R16, R74). -/
def advance (s : State) : Answer := complete (s.pc + 2) s

/-- The end of a blocked step: nothing changes, the pc stays, the timer does not tick (R75, R185). -/
def block (s : State) : Answer := .next s

/-- Taking a fault, the one shared operation (R14, R200, R201, R207): `status` becomes Halted with the fault and its
info; nothing else changes, no register saves anything, control goes nowhere, and the step does not tick.
There is no return from it: "Nothing leaves `Halted`" (R208). -/
def raise (f : Fault) (s : State) : Answer := .next (s.halt f)

end Sys2Proof.Machine
end

