-- ==== Sys2Proof/Machine/Operands.lean ====
section
/-! DEFINITION. The operand forms: jump targets, skips, index-relative memory ranges, glyph addresses, decimal digits,
key selection (spec/40_control_flow.md R100 to R110, spec/42_index_memory.md R140 to R146, spec/44_timers_keys.md R188). -/

namespace Sys2Proof.Machine

/-- `zext_16(nnn)` (R81, R102). -/
def addressOf (nnn : BitVec 12) : Half := nnn.setWidth 16

/-- `zext_16(nnn) + zext_16(V[0])`, at most 0x10FE (R108). -/
def indexedTarget (nnn : BitVec 12) (v0 : Byte) : Half := nnn.setWidth 16 + v0.setWidth 16

/-- Where a return goes: the address of the call that pushed it, plus 2 (R101). -/
def returnTarget (pushed : Half) : Half := pushed + 2

/-- A skip's `next_pc`: pc + 4 when the condition holds, else pc + 2 (R100). -/
def skipTarget (pc : Half) (cond : Bool) : Half := if cond then pc + 4 else pc + 2

/-- A skip instruction: it only sets `next_pc` (R100). -/
def skipIf (cond : Bool) (s : State) : Answer := complete (skipTarget s.pc cond) s

/-- `zext_16(v) * 5`, the address of the glyph of digit v, for every v (R142, D32). -/
def glyphAddress (v : Byte) : Half := v.setWidth 16 * 5

/-- The decimal digits of v: hundreds, tens, units (R143). -/
def decimalDigits (v : Byte) : List Byte :=
  [BitVec.ofNat 8 (v.toNat / 100), BitVec.ofNat 8 (v.toNat / 10 % 10), BitVec.ofNat 8 (v.toNat % 10)]

/-- Whether the `count` bytes from `base` up are all cells 0..4095. Addresses are not wrapped (R55); no byte needs no
check (R161). -/
def rangeOk (base count : Nat) : Bool := decide (count = 0 ∨ base + count ≤ 4096)

/-- The fault of an index-relative access whose range leaves memory: the lowest bad address is max(I, 4096) (R55). -/
def indexFault (kind : AccessKind) (s : State) : Fault := .memoryOutOfRange kind (max s.I.toNat 4096) s.pc

/-- An index-relative access of `count` bytes: the range check of R55 before anything else, then the rest. -/
def withRange (kind : AccessKind) (count : Nat) (s : State) (rest : Answer) : Answer :=
  if rangeOk s.I.toNat count then rest else raise (indexFault kind s) s

/-- A key test: a value above 15 names no key and faults (R188, D10); else `next_pc` follows the skip rule, on whether
the key's state is `want` (R180, R181). -/
def skipIfKey (want : Bool) (v : Byte) (s : State) : Answer :=
  if h : v.toNat < 16 then skipIf (s.keyDown? ⟨v.toNat, h⟩ == want) s
  else raise (.keyIndexOutOfRange v s.pc) s

end Sys2Proof.Machine
end

