-- ==== Sys2Proof/Machine/Reads.lean ====
section
/-! DEFINITION. Which registers an instruction reads, for `RESET_REGS = Unwritten` (spec/10_state.md R23, R38,
spec/92_eei_decisions.md D1). Under the decided `Zero` no register is without a value and nothing here has an effect. -/

namespace Sys2Proof.Machine

/-- An access of `count` bytes at I: I is read for the range check; the registers `more` only if that passes (R14: the
check comes first). -/
def readsAtI (count : Nat) (more : List RegName) (s : State) : List RegName :=
  .I :: if rangeOk s.I.toNat count then more else []

/-- The registers instruction `i` reads in state `s`, in the order of its rule (R23, and the pseudocode of each rule). `Dxyn`
with n = 0 makes no range check and does not read I (R161). -/
def registersRead (i : Instr) (s : State) : List RegName :=
  match i with
  | .cls | .ret | .jp _ | .call _ | .ldByte _ _ | .ldI _ | .rnd _ _ | .ldVxK _ => []
  | .seByte x _ | .sneByte x _ | .addByte x _ | .shr x _ | .shl x _ | .skp x | .sknp x | .ldDT x | .ldST x | .ldF x =>
    [.V x]
  | .seReg x y | .sneReg x y | .orReg x y | .andReg x y | .xorReg x y | .addReg x y | .sub x y | .subn x y =>
    [.V x, .V y]
  | .ldReg _ y => [.V y]
  | .jpV0 _ => [.V 0]
  | .ldVxDT _ => [.DT]
  | .addI x => [.I, .V x]
  | .drw x y n => if n = 0 then [.V x, .V y] else readsAtI n [.V x, .V y] s
  | .ldB x => readsAtI 3 [.V x] s
  | .storeRegs x => readsAtI (x.val + 1) (((List.finRange 16).take (x.val + 1)).map .V) s
  | .loadRegs _ => [.I]

/-- The first register the instruction reads that holds no value, if there is one. -/
def unwrittenRead (i : Instr) (s : State) : Option RegName := (registersRead i s).find? s.lacks

end Sys2Proof.Machine
end

