-- ==== Sys2Proof/Machine/Cycle.lean ====
section
/-! DEFINITION. The step cycle: fetch, decode, execute, and what invalid words do (spec/30_encoding.md R70 to R79, R83
to R86). It takes the instructions' meanings as an argument; Machine/Step.lean gives it `exec`. -/

namespace Sys2Proof.Machine

/-- The fetch range check (R72): the fault when the word at pc leaves memory. -/
def fetchFault (s : State) : Option Fault :=
  if 4095 < s.pc.toNat + 1 then some (.memoryOutOfRange .fetch (max s.pc.toNat 4096) s.pc) else none

/-- The word at pc, big-endian (R52, R72). -/
def fetchWord (s : State) : Half := wordOfBytes (s.byteAt s.pc.toNat) (s.byteAt (s.pc.toNat + 1))

/-- A soft-invalid word: under `Original` the step stalls, pc stays and the timer ticks (R84, D15); under `Unified` it
halts (R86). The report of the stall is an event, given by `outcomeOf` (R228, D28). -/
def softInvalidAction (w : Half) (s : State) : Answer :=
  match s.params.invalidPolicy with
  | .original => complete s.pc s
  | .unified => raise (.invalidOpcode w s.pc) s

/-- A fatal-invalid word halts, under either policy (R85). -/
def fatalInvalidAction (w : Half) (s : State) : Answer := raise (.invalidOpcode w s.pc) s

/-- Decode and execute a fetched word (R70). A read of a register without a value, which
`RESET_REGS = Unwritten` alone brings about, faults (R38, D1; log 3). -/
def runWord (execute : Instr → State → Answer) (w : Half) (s : State) : Answer :=
  match decodeWord w with
  | .insn i =>
    match unwrittenRead i s with
    | some r => raise (.unwrittenRead r s.pc) s
    | none => execute i s
  | .softInvalid => softInvalidAction w s
  | .fatalInvalid => fatalInvalidAction w s

/-- One call of `step()` (R70): on a halted core it has no effect (R71); else the fetch check, then the decode, then
the instruction (R205). That a step was taken is recorded first (log 26). -/
def cycle (execute : Instr → State → Answer) (s : State) : Answer :=
  match s.status with
  | .halted _ => .next s
  | .running =>
    match fetchFault s with
    | some f => raise f s.stepped
    | none => runWord execute (fetchWord s) s.stepped

/-- What `step()` reports (R77, R221): executed, blocked, stalled with the event SoftInvalid(w, pc) (R228), halted with
its fault record. -/
inductive StepOutcome where
  | executed
  | blocked
  | stalled (w pc : Half)
  | halted (f : Fault)
  deriving DecidableEq, Repr

/-- `Fx0A` with no key pressed (R183). -/
def blocks (i : Instr) (s : State) : Bool :=
  match i with
  | .ldVxK _ => s.lowestKey.isNone
  | _ => false

/-- The outcome of a fetched word: halted if the state it leaves is, else blocked, stalled or executed. Every
fault is a next state and nothing is refused (log 11), so the last two lines are never reached. -/
def wordOutcome (w : Half) (s : State) (after : Answer) : StepOutcome :=
  match after with
  | .next t =>
    match t.status with
    | .halted f => .halted f
    | .running =>
      match decodeWord w with
      | .insn i => if blocks i s then .blocked else .executed
      | .softInvalid => .stalled w s.pc
      | .fatalInvalid => .halted (.invalidOpcode w s.pc)
  | .fault f => .halted f
  | .refused _ => .executed

/-- The outcome `step()` reports from state s (R77, R221). -/
def outcomeOf (execute : Instr → State → Answer) (s : State) : StepOutcome :=
  match s.status with
  | .halted f => .halted f
  | .running =>
    match fetchFault s with
    | some f => .halted f
    | none => wordOutcome (fetchWord s) s (runWord execute (fetchWord s) s)

/-- The bytes of a word stored at pc, for `State.withFetchWord`. -/
def storeWordAtPc (s : State) (w : Half) : State := s.storeBytes s.pc.toNat (bytesOfWord w)

end Sys2Proof.Machine
end

