-- ==== Sys2Proof/Machine/ControlFlow.lean ====
section
/-! DEFINITION. Control transfer (spec/40_control_flow.md R100 to R110). -/

namespace Sys2Proof.Machine

/-- `00EE` (R101). -/
def execRet (s : State) : Answer :=
  if h : 0 < s.SP.val then complete (returnTarget (s.top h)) s.pop
  else raise (.stackUnderflow s.pc) s

/-- `1nnn` (R102). -/
def execJp (nnn : BitVec 12) (s : State) : Answer := complete (addressOf nnn) s

/-- `2nnn`: the pushed value is the call's own address (R103). -/
def execCall (nnn : BitVec 12) (s : State) : Answer :=
  if h : s.SP.val < 16 then complete (addressOf nnn) (s.push s.pc h)
  else raise (.stackOverflow s.pc) s

/-- `3xkk` (R104). -/
def execSeByte (x : Reg) (kk : Byte) (s : State) : Answer := skipIf (s.reg x == kk) s

/-- `4xkk` (R105). -/
def execSneByte (x : Reg) (kk : Byte) (s : State) : Answer := skipIf (s.reg x != kk) s

/-- `5xy0` (R106). -/
def execSeReg (x y : Reg) (s : State) : Answer := skipIf (s.reg x == s.reg y) s

/-- `9xy0` (R107). -/
def execSneReg (x y : Reg) (s : State) : Answer := skipIf (s.reg x != s.reg y) s

/-- `Bnnn` (R108). -/
def execJpV0 (nnn : BitVec 12) (s : State) : Answer := complete (indexedTarget nnn (s.reg 0)) s

end Sys2Proof.Machine
end

