-- ==== Sys2Proof/Machine/Display.lean ====
section
/-! DEFINITION. The display instructions (spec/43_display.md R160 to R164). -/

namespace Sys2Proof.Machine

/-- The blank display: all 2048 pixels 0 (R160). -/
def blankDisplay : Display := Vector.replicate 32 (Vector.replicate 64 false)

/-- The pixels so far, and whether one went from 1 to 0 (R161 `disp`, `collision`). -/
structure Drawing where
  disp      : Display
  collision : Bool
  deriving DecidableEq, Repr

/-- One set bit of a sprite at row r, column c: a pixel that is 1 collides; the pixel is XORed with 1 (R161). -/
def drawPixel (r : Fin 32) (c : Fin 64) (d : Drawing) : Drawing :=
  { disp := d.disp.set r.val (d.disp[r].set c.val (!d.disp[r][c]) c.isLt) r.isLt
    collision := d.collision || d.disp[r][c] }

/-- The bit of a sprite byte at column offset j (R163). -/
def spriteBit (order : SpriteBitOrder) (b : Byte) (j : Nat) : Bool :=
  match order with
  | .msbLeft => b.getLsbD (7 - j)
  | .lsbLeft => b.getLsbD j

/-- Pixel (x0 + j) mod 64, (y0 + i) mod 32, drawn if its sprite bit is 1 (R161). -/
def drawBit (order : SpriteBitOrder) (x0 y0 i : Nat) (b : Byte) (d : Drawing) (j : Nat) : Drawing :=
  if spriteBit order b j then
    drawPixel ⟨(y0 + i) % 32, Nat.mod_lt _ (by decide)⟩ ⟨(x0 + j) % 64, Nat.mod_lt _ (by decide)⟩ d
  else d

/-- One sprite row: column offsets 0..7, left to right (R161). -/
def drawRow (order : SpriteBitOrder) (x0 y0 i : Nat) (b : Byte) (d : Drawing) : Drawing :=
  (List.range 8).foldl (drawBit order x0 y0 i b) d

/-- The sprite's rows from row offset i on, top to bottom (R161). -/
def drawRows (order : SpriteBitOrder) (x0 y0 : Nat) : Nat → List Byte → Drawing → Drawing
  | _, [], d => d
  | i, b :: bs, d => drawRows order x0 y0 (i + 1) bs (drawRow order x0 y0 i b d)

/-- A whole sprite drawn at column x0, row y0 (R161). -/
def drawSprite (order : SpriteBitOrder) (x0 y0 : Nat) (sprite : List Byte) (disp : Display) : Drawing :=
  drawRows order x0 y0 0 sprite { disp := disp, collision := false }

/-- `00E0` (R160). -/
def execCls (s : State) : Answer := advance (s.redraw blankDisplay)

/-- The state after the sprite is drawn: the position is read before any write, VF is written after the pixels, and
the draw flag is set (R161). Under `VF_ALIAS = Unspecified` with VF as a position operand, VF holds a free byte
(93_implementation_defined.md item 14; log 9). -/
def drawAt (x y : Reg) (n : Nat) (s : State) : State :=
  let drawing := drawSprite s.params.spriteBitOrder (s.reg x).toNat (s.reg y).toNat (s.mem.readBytes s.I.toNat n) s.disp
  let t := s.redraw drawing.disp
  match s.params.vfAlias with
  | .sequential => t.setReg VF (if drawing.collision then 1 else 0)
  | .unspecified =>
    if x = VF ∨ y = VF then t.setRegFree VF else t.setReg VF (if drawing.collision then 1 else 0)

/-- `Dxyn`: n = 0 makes no range check (R161). -/
def execDrw (x y : Reg) (n : Nat) (s : State) : Answer := withRange .read n s (advance (drawAt x y n s))

end Sys2Proof.Machine
end

