-- ==== Sys2Proof/Machine/IndexMemory.lean ====
section
/-! DEFINITION. The index register and memory transfers (spec/42_index_memory.md R140 to R146). -/

namespace Sys2Proof.Machine

/-- `Annn` (R140). -/
def execLdI (nnn : BitVec 12) (s : State) : Answer := advance (s.setI (addressOf nnn))

/-- `Fx1E`: wraps at 16 bits, VF not written (R141, D11). -/
def execAddI (x : Reg) (s : State) : Answer := advance (s.setI (s.I + (s.reg x).setWidth 16))

/-- `Fx29` (R142). -/
def execLdF (x : Reg) (s : State) : Answer := advance (s.setI (glyphAddress (s.reg x)))

/-- `Fx33` (R143). -/
def execLdB (x : Reg) (s : State) : Answer :=
  withRange .write 3 s (advance (s.storeBytes s.I.toNat (decimalDigits (s.reg x))))

/-- `Fx55`: I is not changed (R144, D20). -/
def execStoreRegs (x : Reg) (s : State) : Answer :=
  withRange .write (x.val + 1) s (advance (s.storeBytes s.I.toNat (s.regsThrough x)))

/-- `Fx65`: I is not changed (R145, D20). -/
def execLoadRegs (x : Reg) (s : State) : Answer :=
  withRange .read (x.val + 1) s (advance (s.setRegsThrough x s.bytesAtI))

end Sys2Proof.Machine
end

