-- ==== Sys2Proof/Machine/Flags.lean ====
section
/-! DEFINITION. The values of VF, the one flag (spec/10_state.md R22, R34), and the register results of the
flag-setting instructions `8xy4` to `8xyE`, with VF as an operand (spec/41_register_alu.md R126 to R133). -/

namespace Sys2Proof.Machine

/-- A Bool as the register value 1 or 0 (R11). -/
def flag (b : Bool) : Byte := if b then 1 else 0

/-- `8xy4`: 1 when the unmasked sum is at least 256 (R126). -/
def carryFlag (a b : Byte) : Byte := flag (decide (256 ≤ a.toNat + b.toNat))

/-- `8xy5`: 1 when a > b, strictly (R127). -/
def greaterFlag (a b : Byte) : Byte := flag (decide (b.toNat < a.toNat))

/-- `8xy7`: 1 when a < b, strictly (R129). -/
def lessFlag (a b : Byte) : Byte := flag (decide (a.toNat < b.toNat))

/-- `8xy6`: bit 0 before the shift (R128). -/
def lowBitFlag (a : Byte) : Byte := a &&& 1

/-- `8xyE`: bit 7 before the shift (R130). -/
def highBitFlag (a : Byte) : Byte := a >>> 7

/-- The `8xy7` result from the values read after the VF write: `Wrap` is the formula Vy - Vx mod 256, `Swap` swaps
the operands on underflow (R129, D13). -/
def subnResult (u : SubnUnderflow) (a b : Byte) : Byte :=
  match u with
  | .wrap => b - a
  | .swap => if a.toNat ≤ b.toNat then b - a else a - b

/-- A flag-setting instruction whose flag is written first: VF, then Vx from the registers as they then are
(R14: each read sees every write above it). -/
def flagThenReg (f : Byte) (x : Reg) (result : State → Byte) (s : State) : State :=
  (s.setReg VF f).setReg x (result (s.setReg VF f))

/-- A flag-setting instruction whose flag is written last (R126). -/
def regThenFlag (x : Reg) (result f : Byte) (s : State) : State := (s.setReg x result).setReg VF f

/-- Under `VF_ALIAS = Unspecified`, each register an aliased instruction writes holds a fresh draw: VF, and Vx where
x is not F (R133; log 9). -/
def aliasDraws (x : Reg) (s : State) : State :=
  if x = VF then s.setRegFree VF else (s.setRegFree VF).setRegFree x

/-- The registers after a flag-setting instruction: its clauses in written order, unless VF is an operand and
`VF_ALIAS = Unspecified` (R133, D12). -/
def resolveAlias (aliased : Bool) (x : Reg) (sequential : State) (s : State) : State :=
  match s.params.vfAlias with
  | .sequential => sequential
  | .unspecified => if aliased then aliasDraws x s else sequential

/-- VF is an operand of a two-register instruction (R133). -/
def aliased2 (x y : Reg) : Bool := decide (x = VF) || decide (y = VF)

/-- VF is an operand of a shift: only x counts, "Vy is not read for any y" (R128, R130, R133). -/
def aliased1 (x : Reg) : Bool := decide (x = VF)

end Sys2Proof.Machine
end

