-- ==== Sys2Proof/Machine/RegisterAlu.lean ====
section
/-! DEFINITION. Register loads, arithmetic, logic, shifts and random (spec/41_register_alu.md R120 to R133). -/

namespace Sys2Proof.Machine

/-- `6xkk` (R120). -/
def execLdByte (x : Reg) (kk : Byte) (s : State) : Answer := advance (s.setReg x kk)

/-- `7xkk`: mod 256, no flag (R121). -/
def execAddByte (x : Reg) (kk : Byte) (s : State) : Answer := advance (s.setReg x (s.reg x + kk))

/-- `8xy0` (R122). -/
def execLdReg (x y : Reg) (s : State) : Answer := advance (s.setReg x (s.reg y))

/-- `8xy1` (R123). -/
def execOrReg (x y : Reg) (s : State) : Answer := advance (s.setReg x (s.reg x ||| s.reg y))

/-- `8xy2` (R124). -/
def execAndReg (x y : Reg) (s : State) : Answer := advance (s.setReg x (s.reg x &&& s.reg y))

/-- `8xy3` (R125). -/
def execXorReg (x y : Reg) (s : State) : Answer := advance (s.setReg x (s.reg x ^^^ s.reg y))

/-- The registers after `8xy4`: the sum, then the carry, both from the values before (R126). -/
def addWithCarry (x y : Reg) (s : State) : State :=
  regThenFlag x (s.reg x + s.reg y) (carryFlag (s.reg x) (s.reg y)) s

/-- `8xy4` (R126, R133). -/
def execAddReg (x y : Reg) (s : State) : Answer :=
  advance (resolveAlias (aliased2 x y) x (addWithCarry x y s) s)

/-- The registers after `8xy5`: the flag from the values before, then the difference from the values after the VF
write, in the order the comparison chose (R127). -/
def subSwapping (x y : Reg) (s : State) : State :=
  if (s.reg y).toNat < (s.reg x).toNat then
    flagThenReg (greaterFlag (s.reg x) (s.reg y)) x (fun t => t.reg x - t.reg y) s
  else
    flagThenReg (greaterFlag (s.reg x) (s.reg y)) x (fun t => t.reg y - t.reg x) s

/-- `8xy5` (R127, R133). -/
def execSub (x y : Reg) (s : State) : Answer :=
  advance (resolveAlias (aliased2 x y) x (subSwapping x y s) s)

/-- The registers after `8xy6` (R128). -/
def shiftRight (x : Reg) (s : State) : State := flagThenReg (lowBitFlag (s.reg x)) x (fun t => t.reg x >>> 1) s

/-- `8xy6`: y is encoded and ignored (R128, R133). -/
def execShr (x : Reg) (_y : Reg) (s : State) : Answer :=
  advance (resolveAlias (aliased1 x) x (shiftRight x s) s)

/-- The registers after `8xy7` (R129). -/
def reverseSub (x y : Reg) (s : State) : State :=
  flagThenReg (lessFlag (s.reg x) (s.reg y)) x (fun t => subnResult s.params.subnUnderflow (t.reg x) (t.reg y)) s

/-- `8xy7` (R129, R133). -/
def execSubn (x y : Reg) (s : State) : Answer :=
  advance (resolveAlias (aliased2 x y) x (reverseSub x y s) s)

/-- The registers after `8xyE` (R130). -/
def shiftLeft (x : Reg) (s : State) : State := flagThenReg (highBitFlag (s.reg x)) x (fun t => t.reg x <<< 1) s

/-- `8xyE`: y is encoded and ignored (R130, R133). -/
def execShl (x : Reg) (_y : Reg) (s : State) : Answer :=
  advance (resolveAlias (aliased1 x) x (shiftLeft x s) s)

/-- `Cxkk`: a fresh free byte AND kk (R131, D21). -/
def execRnd (x : Reg) (kk : Byte) (s : State) : Answer := advance ((s.setReg x (s.freeByte &&& kk)).drawn)

end Sys2Proof.Machine
end

