-- ==== Sys2Proof/Machine/TimersKeys.lean ====
section
/-! DEFINITION. The key and timer instructions (spec/44_timers_keys.md R180 to R188). -/

namespace Sys2Proof.Machine

/-- `Ex9E` (R180, R188). -/
def execSkp (x : Reg) (s : State) : Answer := skipIfKey true (s.reg x) s

/-- `ExA1` (R181, R188). -/
def execSknp (x : Reg) (s : State) : Answer := skipIfKey false (s.reg x) s

/-- `Fx07`: the value before this step's tick (R182). -/
def execLdVxDT (x : Reg) (s : State) : Answer := advance (s.setReg x s.DT)

/-- `Fx0A`: the lowest pressed key, or a blocked step (R183, R184, R185). -/
def execLdVxK (x : Reg) (s : State) : Answer :=
  match s.lowestKey with
  | some k => advance (s.setReg x (BitVec.ofNat 8 k.val))
  | none => block s

/-- `Fx15`: the step's tick then runs on the value set (R186). -/
def execLdDT (x : Reg) (s : State) : Answer := advance (s.setDT (s.reg x))

/-- `Fx18` (R187). -/
def execLdST (x : Reg) (s : State) : Answer := advance (s.setST (s.reg x))

end Sys2Proof.Machine
end

