-- ==== Sys2Proof/Machine/Step.lean ====
section
/-! DEFINITION. One step of the core (spec/30_encoding.md R70), and the host's way to put one word where the next step
fetches. -/

namespace Sys2Proof.Machine

/-- One call of `step()` (R70). -/
def step (s : State) : Host.Outcome State Fault Refusal := cycle exec s

/-- What that call reports to the host (R77, R221). -/
def stepOutcome (s : State) : StepOutcome := outcomeOf exec s

/-- `s` with the `nbits`-bit instruction `w`, numbered as spec/opcode_table.json numbers it, stored at pc (R72). It
stands for the load of a program from outside (log 13). -/
def State.withFetchWord (s : State) (nbits w : Nat) : State := storeWordAtPc s (BitVec.ofNat 16 (w % 2 ^ nbits))

end Sys2Proof.Machine
end

