-- ==== Sys2Proof/Machine/HostInterface.lean ====
section
/-! DEFINITION. The host's operations on the core (spec/60_exceptions.md R220 to R228, spec/70_reset_and_hazards.md R242
to R246). They happen only between steps (R227); a call that breaks the host's contract has no move and is refused
by name (R227, D22, D23). -/

namespace Sys2Proof.Machine

/-- What `load_program` returns (R204, R220, R243). -/
inductive LoadResult where
  | ok
  | programTooLarge
  | ioFailure
  deriving DecidableEq, Repr

/-- The six operations (R220). An image that cannot be obtained is `none` (R245). -/
inductive HostCall where
  | step
  | loadProgram (image : Option (List Byte))
  | keyDown (k : Nat)
  | keyUp (k : Nat)
  | display
  | takeDrawFlag
  deriving DecidableEq, Repr

/-- Their results (R220). -/
inductive HostReply where
  | outcome (o : StepOutcome)
  | loaded (r : LoadResult)
  | done
  | grid (d : Display)
  | drawFlag (b : Bool)
  deriving DecidableEq, Repr

/-- A host operation's answer: its reply with the state it leaves, or a refusal. -/
abbrev HostAnswer := Host.Outcome (HostReply × State) Fault Refusal

/-- `key[k] <- b` (R223, R224). -/
def State.setKey (s : State) (k : Fin 16) (b : Bool) : State := { s with key := s.key.set k.val b k.isLt }

/-- `drawFlag <- 0` (R226). -/
def State.clearDrawFlag (s : State) : State := { s with drawFlag := false }

/-- `key_down(k)` and `key_up(k)`; an index above 15 is outside the contract (R223, R224, R227). -/
def setKeyCall (k : Nat) (b : Bool) (s : State) : HostAnswer :=
  if h : k < 16 then .next (.done, s.setKey ⟨k, h⟩ b) else .refused (.keyIndexContract k)

/-- `display()`: a snapshot, nothing changes (R225). -/
def displayCall (s : State) : HostAnswer := .next (.grid s.disp, s)

/-- `take_draw_flag()`: the flag, which is then 0 (R226). -/
def takeDrawFlagCall (s : State) : HostAnswer := .next (.drawFlag s.drawFlag, s.clearDrawFlag)

/-- The state after an image was copied in at 0x200 (R242, R243), with the record that one was (log 26). -/
def State.withImage (s : State) (image : List Byte) : State := { s.storeBytes 0x200 image with stage := .loaded }

/-- `load_program(bytes)` (R243): in full or not at all; at most 3584 bytes. Once, and only before the first step
(R246, R247, D23). DESIGN CHOICE (log 27): a load that returned `ProgramTooLarge` or `IOFailure` does not count as the one
load, and the host may call again; the spec does not say. DESIGN CHOICE (log 28): a state on which the host already
called `key_down`, `key_up`, `display` or `take_draw_flag` still counts as the fresh state, and the load keeps the keys as
they are; the spec does not say (R227, R243). -/
def loadProgramCall (image : Option (List Byte)) (s : State) : HostAnswer :=
  if s.stage = .fresh then
    match image with
    | none => .next (.loaded .ioFailure, s)
    | some bytes =>
      if 3584 < bytes.length then .next (.loaded .programTooLarge, s)
      else .next (.loaded .ok, s.withImage bytes)
  else .refused .loadNotOnFreshState

/-- `step()` as the host sees it: the outcome reported and the state left (R221). -/
def stepCall (s : State) : HostAnswer :=
  match step s with
  | .next t => .next (.outcome (stepOutcome s), t)
  | .fault f => .fault f
  | .refused r => .refused r

/-- One host operation (R220). -/
def hostCall (c : HostCall) (s : State) : HostAnswer :=
  match c with
  | .step => stepCall s
  | .loadProgram image => loadProgramCall image s
  | .keyDown k => setKeyCall k true s
  | .keyUp k => setKeyCall k false s
  | .display => displayCall s
  | .takeDrawFlag => takeDrawFlagCall s

end Sys2Proof.Machine
end

