-- ==== Sys2Proof/Safety.lean ====
section
/-! DEFINITION. The terms claims are stated in: what an instruction leaves alone (the frame rule, spec/00_scope.md
R15), the end of a step, the invariant of the machine, the ends and hangs of a run (spec/70_reset_and_hazards.md R254,
R255), and the fault table of spec/60_exceptions.md R202 written down once more, from the table. -/

namespace Sys2Proof

open Machine

/-! ## Frames -/

/-- What an instruction writes besides `pc` and the tick of `DT`: registers, `I`, `DT` itself, the stack (slots and SP),
`ST`, the screen (pixels and the draw flag), the count of free bytes drawn, and the `len` bytes of memory from `base`.
Nothing, unless named. -/
structure Touched where
  regs   : List Reg := []
  index  : Bool := false
  delay  : Bool := false
  stack  : Bool := false
  sound  : Bool := false
  screen : Bool := false
  draws  : Bool := false
  base   : Nat := 0
  len    : Nat := 0

/-- The register is one of those named as written. -/
def Touched.writes (c : Touched) : RegName → Bool
  | .V r => c.regs.contains r
  | .I => c.index
  | .DT => c.delay

/-- `t` has every part of `s` that is not named as touched, and a register without a value (R38) gets one exactly by
being written. The key states, the status, the parameters and the record of steps and loads are never touched by an
executed instruction. -/
def Frame (c : Touched) (s t : State) : Prop :=
  (∀ r, r ∉ c.regs → t.reg r = s.reg r) ∧
  (c.index = false → t.I = s.I) ∧
  (c.stack = false → t.SP = s.SP ∧ ∀ j : Fin 16, t.stack[j] = s.stack[j]) ∧
  (c.sound = false → t.ST = s.ST) ∧
  (c.screen = false → t.drawFlag = s.drawFlag ∧ ∀ r k, t.pixel r k = s.pixel r k) ∧
  (c.draws = false → t.draws = s.draws) ∧
  (∀ a, ¬ (c.base ≤ a ∧ a < c.base + c.len) → t.byteAt a = s.byteAt a) ∧
  (∀ k, t.keyDown? k = s.keyDown? k) ∧ t.status = s.status ∧ t.params = s.params ∧ t.stage = s.stage ∧
  ∀ r, t.lacks r = (s.lacks r && !c.writes r)

/-- `t` is left by executing `i` in `s`: the pc is `nextPc`, the delay timer is one lower than `d` (0 stays 0:
R75), and nothing but what `c` names has changed. -/
def Executes (i : Instr) (s t : State) (nextPc : Half) (d : Byte) (c : Touched) : Prop :=
  exec i s = .next t ∧ t.pc = nextPc ∧ t.DT.toNat = d.toNat - 1 ∧ Frame c s t

/-- `i` takes the fault `f` in `s`: a next state that differs in the status alone (R200, R201). -/
def Takes (i : Instr) (s : State) (f : Fault) : Prop :=
  exec i s = .next { s with status := .halted f }

/-- The words of an opcode row (R82) are exactly those that decode to the instruction with that word's fields. -/
def EncodedAs (mask pattern : Half) (i : Half → Instr) : Prop :=
  ∀ w : Half, w &&& mask = pattern ↔ decodeWord w = .insn (i w)

/-- The bits of a word its instruction depends on, operands included: all but the don't-care bits of R87. -/
def Instr.careMask : Instr → Half
  | .cls | .ret => 0xF0FF
  | .seReg _ _ | .sneReg _ _ => 0xFFF0
  | .jp _ | .call _ | .seByte _ _ | .sneByte _ _ | .ldByte _ _ | .addByte _ _ | .ldReg _ _ | .orReg _ _ | .andReg _ _
  | .xorReg _ _ | .addReg _ _ | .sub _ _ | .shr _ _ | .subn _ _ | .shl _ _ | .ldI _ | .jpV0 _ | .rnd _ _ | .drw _ _ _
  | .skp _ | .sknp _ | .ldVxDT _ | .ldVxK _ | .ldDT _ | .ldST _ | .addI _ | .ldF _ | .ldB _ | .storeRegs _
  | .loadRegs _ => 0xFFFF

/-! ## Faults (R202) -/

/-- The row of R202's table that applies to instruction `i` in state `s`: the fault it raises, with the info it
records, or none. -/
def tabledFault (i : Instr) (s : State) : Option Fault :=
  match i with
  | .ret => if s.SP.val = 0 then some (.stackUnderflow s.pc) else none
  | .call _ => if s.SP.val = 16 then some (.stackOverflow s.pc) else none
  | .skp x | .sknp x => if 15 < (s.reg x).toNat then some (.keyIndexOutOfRange (s.reg x) s.pc) else none
  | .drw _ _ n =>
    if 0 < n ∧ 4095 < s.I.toNat + n - 1 then some (.memoryOutOfRange .read (max s.I.toNat 4096) s.pc) else none
  | .ldB _ => if 4095 < s.I.toNat + 2 then some (.memoryOutOfRange .write (max s.I.toNat 4096) s.pc) else none
  | .storeRegs x =>
    if 4095 < s.I.toNat + x.val then some (.memoryOutOfRange .write (max s.I.toNat 4096) s.pc) else none
  | .loadRegs x =>
    if 4095 < s.I.toNat + x.val then some (.memoryOutOfRange .read (max s.I.toNat 4096) s.pc) else none
  | .cls | .jp _ | .seByte _ _ | .sneByte _ _ | .seReg _ _ | .ldByte _ _ | .addByte _ _ | .ldReg _ _ | .orReg _ _
  | .andReg _ _ | .xorReg _ _ | .addReg _ _ | .sub _ _ | .shr _ _ | .subn _ _ | .shl _ _ | .sneReg _ _ | .ldI _
  | .jpV0 _ | .rnd _ _ | .ldVxDT _ | .ldVxK _ | .ldDT _ | .ldST _ | .addI _ | .ldF _ => none

/-! ## Sprites (R161, R163) -/

/-- The sprite of `Dxyn` in state `s` has a 1 bit on the pixel of row `r`, column `c`: byte i at I + i, its bit for
column offset j, at row (Vy + i) mod 32 and column (Vx + j) mod 64. -/
def Covers (s : State) (x y : Reg) (n : Nat) (r : Fin 32) (c : Fin 64) : Prop :=
  ∃ i j : Nat, i < n ∧ j < 8 ∧ ((s.reg y).toNat + i) % 32 = r.val ∧ ((s.reg x).toNat + j) % 64 = c.val ∧
    (s.byteAt (s.I.toNat + i)).getLsbD
      (match s.params.spriteBitOrder with | .msbLeft => 7 - j | .lsbLeft => j) = true

/-! ## The invariant of the machine -/

/-- Everything but memory, the keys and the parameters is as creation left it: what a load finds and keeps (R243, R246).
`draws`, `unwritten` and `stage` are the model's own. -/
def Machine.State.AsCreated (s : State) : Prop :=
  (∀ r, s.reg r = 0) ∧ s.I = 0 ∧ s.pc = 0x200 ∧ (∀ j : Fin 16, s.stack[j] = 0) ∧ s.SP = 0 ∧ s.DT = 0 ∧ s.ST = 0 ∧
  (∀ r c, s.pixel r c = false) ∧ s.drawFlag = false ∧ s.status = .running

/-- What every step and every host action keeps: memory in its canonical form (log 16), a pc no rule can push above
0x10FE, so that 16-bit pc arithmetic never wraps (R25, R74), stack slots at most 4094, an address a word can be fetched
at; before the first step the state is as created, and before a load all memory behind the font is zero (R38, R246). -/
def Machine.State.Inv (s : State) : Prop :=
  s.mem.wf = true ∧ s.pc.toNat ≤ 0x10FE ∧ (∀ j : Fin 16, s.stack[j].toNat ≤ 4094) ∧
  (s.stage ≠ .stepped → s.AsCreated) ∧
  (s.stage = .fresh → ∀ a, 0x50 ≤ a → a ≤ 4095 → s.byteAt a = 0)

/-! ## The next pc as an integer (R74) -/

/-- The value R74 gives the pc after instruction `i` in state `s`, as a mathematical integer, never wrapped. -/
def integerNextPc (i : Instr) (s : State) : Nat :=
  let skip (cond : Bool) : Nat := s.pc.toNat + if cond then 4 else 2
  match i with
  | .jp nnn | .call nnn => nnn.toNat
  | .jpV0 nnn => nnn.toNat + (s.reg 0).toNat
  | .ret => (s.stack.toList.getD (s.SP.val - 1) 0).toNat + 2
  | .seByte x kk => skip (decide (s.reg x = kk))
  | .sneByte x kk => skip (decide (s.reg x ≠ kk))
  | .seReg x y => skip (decide (s.reg x = s.reg y))
  | .sneReg x y => skip (decide (s.reg x ≠ s.reg y))
  | .skp x => skip (s.key.toList.getD (s.reg x).toNat false)
  | .sknp x => skip (!s.key.toList.getD (s.reg x).toNat false)
  | .cls | .ldByte _ _ | .addByte _ _ | .ldReg _ _ | .orReg _ _ | .andReg _ _ | .xorReg _ _ | .addReg _ _ | .sub _ _
  | .shr _ _ | .subn _ _ | .shl _ _ | .ldI _ | .rnd _ _ | .drw _ _ _ | .ldVxDT _ | .ldVxK _ | .ldDT _ | .ldST _
  | .addI _ | .ldF _ | .ldB _ | .storeRegs _ | .loadRegs _ => s.pc.toNat + 2

/-! ## Registers without a value (R23, R38, R247) -/

/-- The columns "reads" of R23, with `DT` for `Fx07`, `I` for its readers (R24), and the order of the range check (R14):
instruction `i` in state `s` reads register `r`. -/
def Reads (i : Instr) (s : State) (r : RegName) : Prop :=
  match i with
  | .seByte x _ | .sneByte x _ | .addByte x _ | .shr x _ | .shl x _ | .skp x | .sknp x | .ldDT x | .ldST x | .ldF x =>
    r = .V x
  | .seReg x y | .sneReg x y | .orReg x y | .andReg x y | .xorReg x y | .addReg x y | .sub x y | .subn x y =>
    r = .V x ∨ r = .V y
  | .ldReg _ y => r = .V y
  | .jpV0 _ => r = .V 0
  | .ldVxDT _ => r = .DT
  | .addI x => r = .I ∨ r = .V x
  | .drw x y n => (n ≠ 0 ∧ r = .I) ∨ ((n = 0 ∨ s.I.toNat + n - 1 ≤ 4095) ∧ (r = .V x ∨ r = .V y))
  | .ldB x => r = .I ∨ (s.I.toNat + 2 ≤ 4095 ∧ r = .V x)
  | .storeRegs x => r = .I ∨ (s.I.toNat + x.val ≤ 4095 ∧ ∃ j, j ≤ x ∧ r = .V j)
  | .loadRegs _ => r = .I
  | .cls | .ret | .jp _ | .call _ | .ldByte _ _ | .ldI _ | .rnd _ _ | .ldVxK _ => False

/-- Every register holds a value: so at creation under `RESET_REGS = Zero`. -/
def Machine.State.AllWritten (s : State) : Prop := ∀ r, s.lacks r = false

/-! ## The ends and hangs of a run (R254, R255) -/

/-- `k` calls of `step()` in a row, with no host action between them, stopping at a fault or refusal
(there is none: every step answers a next state, log 11). -/
def Machine.runSteps : Nat → State → Answer
  | 0, s => .next s
  | k + 1, s =>
    match step s with
    | .next t => runSteps k t
    | .fault f => .fault f
    | .refused r => .refused r

/-- The next step fetches inside memory and finds the word `w`. -/
def Machine.State.AtWord (s : State) (w : Half) : Prop :=
  s.status = .running ∧ s.pc.toNat ≤ 4094 ∧ fetchWord s = w

/-- The good end of a run: the word at pc is 0x1nnn with nnn = pc, a jump to itself (R254). -/
def Machine.State.Idle (s : State) : Prop := s.pc.toNat ≤ 4094 ∧ s.AtWord (0x1000 + s.pc)

/-- A soft-invalid stall under `INVALID_POLICY = Original` (R84, R254). -/
def Machine.State.StalledAt (s : State) (w : Half) : Prop :=
  s.AtWord w ∧ decodeWord w = .softInvalid ∧ s.params.invalidPolicy = .original

/-- The fetched instruction reads a register that holds no value yet (R38, `RESET_REGS = Unwritten`). -/
def Machine.State.ReadsUnwritten (s : State) : Prop :=
  ∃ w i r, s.AtWord w ∧ decodeWord w = .insn i ∧ Reads i s r ∧ s.lacks r = true

/-- An `Fx0A` with no key pressed (R185). -/
def Machine.State.WaitingForKey (s : State) : Prop :=
  (∃ w x, s.AtWord w ∧ decodeWord w = .insn (.ldVxK x)) ∧ ∀ k, s.keyDown? k = false

end Sys2Proof
end

