-- ==== Sys2Proof/Certificates/Slice0/Obligations.lean ====
section
/-! DEFINITION. The statements for the provers. Each docstring names the rules of spec/ the statement formalises.
Where a statement speaks of a parameter of spec/00_scope.md R9 it holds for every value of it (log 1); where it
speaks of a free byte (`Config.freeByte`) it holds whatever the bytes are (log 2).
What an instruction leaves alone (the `Frame` inside `Executes`) is R15, which the spec marks as its own decision D20
(log 10); where a docstring names another D<n>, that clause is likewise the spec's own decision, followed by the model
(log 10). Statements with such a clause are 'derived'.
A step of a running core first records that it was taken (`State.stepped`, the model's own field `stage`, log 26), then
does what the rules say; and where the fetched instruction reads a register that holds no value, which can happen only
under `RESET_REGS = Unwritten`, it faults (log 3). -/

open Sys2Proof Sys2Proof.Machine

/-! ## Encoding and decoding -/

/-- A few words, written out bit by bit from R80 and R82, and the instructions they stand for; one invalid word of
each class (R83). -/
def Obligations.WrittenOutWordsDecode : Prop :=
  decodeWord 0b0000_0000_1110_0000 = .insn .cls ∧
  decodeWord 0b0010_0010_0001_0000 = .insn (.call 0x210) ∧
  decodeWord 0b1000_0011_0010_0101 = .insn (.sub 3 2) ∧
  decodeWord 0b1010_0011_0000_0000 = .insn (.ldI 0x300) ∧
  decodeWord 0b1101_0000_0001_0101 = .insn (.drw 0 1 5) ∧
  decodeWord 0b1111_1010_0011_0011 = .insn (.ldB 0xA) ∧
  decodeWord 0b1000_0000_0000_1000 = .softInvalid ∧
  decodeWord 0b0000_0001_0010_0011 = .fatalInvalid

/-- The fields of a word are the unsigned numbers of R81, and an address or an immediate is widened with zeros. -/
def Obligations.FieldsAreUnsignedNumbers : Prop :=
  ∀ w : Half,
    fieldA w = w.toNat / 4096 ∧ (fieldX w).val = w.toNat / 256 % 16 ∧ (fieldY w).val = w.toNat / 16 % 16 ∧
    fieldN w = w.toNat % 16 ∧ (fieldKK w).toNat = w.toNat % 256 ∧ (fieldNNN w).toNat = w.toNat % 4096 ∧
    (addressOf (fieldNNN w)).toNat = w.toNat % 4096

/-- Every well-formed instruction, with every operand at every value its field admits, is what its word decodes to;
on bytes, whatever follows them is left over (R80, R82). -/
def Obligations.DecodeOfEncode : Prop :=
  ∀ (i : Instr) (rest : List Byte), i.WellFormed →
    decodeWord (encode i) = .insn i ∧ decodeBytes (encodeBytes i ++ rest) = .ok (i, rest)

/-- R82: the decoder and the printed opcode map agree, an instruction's word matching its row and a word that matches
a row decoding to an instruction of it; and no word matches two rows. Only well-formed instructions are decoded. -/
def Obligations.DecoderFollowsTheOpcodeMap : Prop :=
  (∀ (w : Half) (i : Instr), decodeWord w = .insn i → i.row.Matches w ∧ i.WellFormed) ∧
  (∀ (w : Half) (j : Instr), j.row.Matches w → ∃ i, decodeWord w = .insn i ∧ i.row = j.row) ∧
  (∀ (w : Half) (i j : Instr), i.row.Matches w → j.row.Matches w → i.row = j.row)

/-- R87 (D16, D17): encoding what a word decodes to gives the word back with its don't-care bits 0 (bits 3..0 of
`5xyn` and `9xyn`, bits 11..8 of `0?E0` and `0?EE`, none in the other rows), and a word that differs from it in
don't-care bits alone decodes to the same instruction. That the encoder writes 0 in a don't-care bit, and that the
ignored y field of the two shifts counts as an operand and no don't-care bit, is the model's choice (log 17). -/
def Obligations.DontCareBitsAreIgnored : Prop :=
  ∀ (w : Half) (i : Instr), decodeWord w = .insn i →
    encode i = w &&& i.careMask ∧
    ∀ w' : Half, w' &&& i.careMask = w &&& i.careMask → decodeWord w' = .insn i

/-- R83: which words are soft-invalid and which are fatal-invalid; every other word decodes to an instruction. -/
def Obligations.InvalidWordsAreTheTwoClasses : Prop :=
  ∀ w : Half,
    (decodeWord w = .softInvalid ↔
      (w.toNat / 4096 = 0x8 ∧ w.toNat % 16 ∈ [0x8, 0x9, 0xA, 0xB, 0xC, 0xD, 0xF]) ∨
      (w.toNat / 4096 = 0xE ∧ w.toNat % 256 ∉ [0x9E, 0xA1])) ∧
    (decodeWord w = .fatalInvalid ↔
      (w.toNat / 4096 = 0x0 ∧ w.toNat % 256 ∉ [0xE0, 0xEE]) ∨
      (w.toNat / 4096 = 0xF ∧ w.toNat % 256 ∉ [0x07, 0x0A, 0x15, 0x18, 0x1E, 0x29, 0x33, 0x55, 0x65]))

/-! ## Creation and memory -/

/-- R38, R240, R241: the state at creation, for every `FONT_IMAGE` and every value of the parameters, and the reset
state is creation with the decided ones. Under `RESET_REGS = Zero` the registers hold 0 (D1), under `Unwritten` they
hold no value; the other zeros are D2 (logs 3, 4). The font bytes of `fontImage` are log 5; `draws = 0` and `stage =
fresh` are the model's own (logs 2, 26). -/
def Obligations.CreationValues : Prop :=
  (∀ (p : Params) (font : List Byte) (s : State), font.length = 80 → s = State.create p font →
    (∀ a, a < 0x50 → some (s.byteAt a) = font[a]?) ∧ (∀ a, 0x50 ≤ a → a ≤ 0xFFF → s.byteAt a = 0) ∧
    s.pc = 0x200 ∧ s.SP = 0 ∧ (∀ r c, s.pixel r c = false) ∧ s.drawFlag = false ∧ (∀ k, s.keyDown? k = false) ∧
    s.status = .running ∧ s.params = p ∧ s.draws = 0 ∧ s.stage = .fresh ∧
    (p.resetRegs = .zero → (∀ r, s.reg r = 0) ∧ s.I = 0 ∧ (∀ j : Fin 16, s.stack[j] = 0) ∧ s.DT = 0 ∧ s.ST = 0 ∧
      s.AllWritten) ∧
    (p.resetRegs = .unwritten → ∀ r, s.lacks r = true)) ∧
  State.create Params.decided fontImage = State.reset

/-- R60: "Every read returns the value of the most recent write to that cell in program order": after any sequence of
byte writes inside memory, oldest first, an address reads as the last write to it, or as before if there was none. -/
def Obligations.ReadsReturnTheLatestWrite : Prop :=
  ∀ (m : Memory) (writes : List Host.Cell) (a : Nat), (∀ w ∈ writes, w.1 ≤ 4095) →
    (writes.foldl (fun m w => m.write w.1 w.2) m).read a =
      match writes.reverse.find? (fun w => w.1 == a) with
      | some w => w.2
      | none => m.read a

/-- The canonical form of the model's memory (log 16): two memories in it that read the same at the 4096 addresses
are the same data. -/
def Obligations.EqualMemoriesAreEqualData : Prop :=
  ∀ m m' : Memory, m.wf = true → m'.wf = true → (∀ a, a ≤ 4095 → m.read a = m'.read a) → m = m'

/-! ## The step -/

/-- R70, R72, R73: when the word at pc decodes to an instruction and every register it reads holds a value, a running
core's step is `exec` of it at that state, with the record that a step was taken (log 26), and nothing else; the pc
update and the tick are part of `exec`'s answer (log 19). -/
def Obligations.StepRunsTheDecodedInstruction : Prop :=
  ∀ (s : State) (w : Half) (i : Instr), s.AtWord w → decodeWord w = .insn i →
    (∀ r, Reads i s r → s.lacks r = false) → step s = exec i s.stepped

/-- R72: the word fetched is mem[pc] × 256 + mem[pc+1], at any pc, odd or even; a fetch that would leave memory
raises `MemoryOutOfRange(fetch, a, pc)` with the lowest bad address and changes nothing else (D6, D7; that the step is
recorded is log 26). -/
def Obligations.FetchIsBigEndianOrFaults : Prop :=
  ∀ s : State, s.status = .running →
    (s.pc.toNat + 1 ≤ 4095 →
      step s = runWord exec (fetchWord s) s.stepped ∧
      (fetchWord s).toNat = (s.byteAt s.pc.toNat).toNat * 256 + (s.byteAt (s.pc.toNat + 1)).toNat) ∧
    (4095 < s.pc.toNat + 1 →
      step s = .next { s.stepped with
        status := .halted (.memoryOutOfRange .fetch (if s.pc = 4095 then 4096 else s.pc.toNat) s.pc) })

/-- R84, R85, R86: a fatal-invalid word halts with `InvalidOpcode(w, pc)` under either policy, and so does a
soft-invalid word under `Unified`; under `Original` it stalls: reported, pc not advanced, the timer ticks, nothing
else changes (D14, D15, D28; that the step is recorded is log 26). -/
def Obligations.InvalidWordsHaltOrStall : Prop :=
  ∀ (s : State) (w : Half), s.AtWord w →
    (decodeWord w = .fatalInvalid →
      step s = .next { s.stepped with status := .halted (.invalidOpcode w s.pc) } ∧
      stepOutcome s = .halted (.invalidOpcode w s.pc)) ∧
    (decodeWord w = .softInvalid → s.params.invalidPolicy = .unified →
      step s = .next { s.stepped with status := .halted (.invalidOpcode w s.pc) } ∧
      stepOutcome s = .halted (.invalidOpcode w s.pc)) ∧
    (decodeWord w = .softInvalid → s.params.invalidPolicy = .original →
      ∃ t, step s = .next t ∧ t.DT.toNat = s.DT.toNat - 1 ∧ t = { s.stepped with DT := t.DT } ∧
        stepOutcome s = .stalled w s.pc)

/-- R71, R200, R208 (D24): a halted core takes no further step. However often it is stepped the state stays as it
is, and each call reports the recorded fault. -/
def Obligations.HaltedCoreStaysHalted : Prop :=
  ∀ (s : State) (f : Fault) (k : Nat), s.status = .halted f →
    runSteps k s = .next s ∧ stepOutcome s = .halted f

/-- R77: every step of a running core ends in exactly one of the four outcomes, each with its state change: executed
(the instruction's own answer, still running), blocked (`Fx0A`, no key pressed, nothing changes), stalled (a
soft-invalid word under `Original`, only the tick), halted (only the status). That a read of a register without a value
is among the halts is the model's reading of `RESET_REGS = Unwritten` (log 3); the record of the step is log 26. -/
def Obligations.StepEndsInOneOfFourOutcomes : Prop :=
  ∀ s : State, s.status = .running → ∃ t, step s = .next t ∧
    match stepOutcome s with
    | .executed =>
      ∃ w i, s.AtWord w ∧ decodeWord w = .insn i ∧ exec i s.stepped = .next t ∧ t.status = .running ∧
        ¬ s.WaitingForKey ∧ t.DT.toNat = (match i with | .ldDT x => s.reg x | _ => s.DT).toNat - 1
    | .blocked => s.WaitingForKey ∧ t = s.stepped
    | .stalled w p => s.StalledAt w ∧ p = s.pc ∧ t.DT.toNat = s.DT.toNat - 1 ∧ t = { s.stepped with DT := t.DT }
    | .halted f => t = { s.stepped with status := .halted f }

/-- R38, R247, D1: a step that reads a register which holds no value faults, with a record that names such a register
and the pc, and changes nothing else; and no other step of a running core ends in that fault. What the record holds, and
that the tick is no read, is log 3; that the step is recorded is log 26. -/
def Obligations.ReadBeforeWriteFaults : Prop :=
  ∀ s : State,
    (s.ReadsUnwritten → ∃ r w i, s.AtWord w ∧ decodeWord w = .insn i ∧ Reads i s r ∧ s.lacks r = true ∧
      step s = .next { s.stepped with status := .halted (.unwrittenRead r s.pc) } ∧
      stepOutcome s = .halted (.unwrittenRead r s.pc)) ∧
    (∀ r p, s.status = .running → stepOutcome s = .halted (.unwrittenRead r p) → s.ReadsUnwritten)

/-- D1, `RESET_REGS = Zero`: creation leaves every register with a value, every step and every host action keeps it
so, and from such a state no step of a running core ends in the fault of a read without a value (log 3). -/
def Obligations.UnderZeroNoReadFaults : Prop :=
  (∀ (p : Params) (font : List Byte), p.resetRegs = .zero → (State.create p font).AllWritten) ∧
  (∀ s : State, s.AllWritten → ∃ t, step s = .next t ∧ t.AllWritten ∧
    (s.status = .running → ∀ r p, t.status ≠ .halted (.unwrittenRead r p))) ∧
  (∀ (c : HostCall) (s t : State) (r : HostReply), s.AllWritten → hostCall c s = .next (r, t) → t.AllWritten)

/-- R201 (D5): a step that faults changes nothing but `status`; the delay timer does not tick. That the step is
recorded is log 26. -/
def Obligations.FaultsArePrecise : Prop :=
  ∀ (s t : State) (f : Fault), s.status = .running → step s = .next t → t.status = .halted f →
    t = { s.stepped with status := .halted f }

/-- R202, R205 (D5, D8, D9, D10): an instruction faults exactly when the fault table says, with the info it says,
and otherwise answers a next state with the status unchanged. -/
def Obligations.InstructionsFaultAsTabulated : Prop :=
  ∀ (i : Instr) (s : State),
    match tabledFault i s with
    | some f => Takes i s f
    | none => ∃ t, exec i s = .next t ∧ t.status = s.status

/-- R75: the delay timer goes down by one, 0 staying 0, in every step that is neither blocked nor faulting, also in a
stalled one; where their step does not fault, `Fx15`'s tick runs on the value set and `Fx07` reads the value before its
step's tick. -/
def Obligations.DelayTimerTicksOncePerStep : Prop :=
  ∀ s t : State, s.status = .running → step s = .next t →
    (∀ w x, s.AtWord w → decodeWord w = .insn (.ldDT x) → (∀ f, stepOutcome s ≠ .halted f) →
      t.DT.toNat = (s.reg x).toNat - 1) ∧
    (∀ w x, s.AtWord w → decodeWord w = .insn (.ldVxDT x) → (∀ f, stepOutcome s ≠ .halted f) → t.reg x = s.DT) ∧
    (stepOutcome s = .blocked → t.DT = s.DT) ∧
    (∀ f, stepOutcome s = .halted f → t.DT = s.DT) ∧
    ((∀ w x, s.AtWord w → decodeWord w ≠ .insn (.ldDT x)) → stepOutcome s ≠ .blocked →
      (∀ f, stepOutcome s ≠ .halted f) → t.DT.toNat = s.DT.toNat - 1)

/-- The machine invariant: every step keeps memory in the model's canonical form (log 16), the pc at most 0x10FE (R25,
R74: "a 16-bit `pc` never wraps"), every stack slot at most 4094, an address a word can be fetched at, and, as long as
no step was taken, the state as created (R38; log 26). From every state that has it, reached or not. -/
def Obligations.StepKeepsTheInvariant : Prop :=
  ∀ s t : State, s.Inv → step s = .next t → t.Inv

/-- Creation has the machine invariant, with any font of 80 bytes and any parameters. -/
def Obligations.CreationHasTheInvariant : Prop :=
  State.reset.Inv ∧ ∀ (p : Params) (font : List Byte), (State.create p font).Inv

/-- R74, R25: from a state of the invariant, an executed step's new pc is the true integer of its rule (nnn, nnn +
V0, the popped address + 2, pc + 4 or pc + 2), so its 16-bit arithmetic (log 15) never wraps, and it is at most
0x10FE. -/
def Obligations.ProgramCounterNeverWraps : Prop :=
  ∀ (s t : State) (w : Half) (i : Instr), s.Inv → s.AtWord w → decodeWord w = .insn i → step s = .next t →
    stepOutcome s = .executed → t.pc.toNat = integerNextPc i s ∧ integerNextPc i s ≤ 0x10FE

/-! ## Whole-machine rules: who changes what -/

/-- R24, R26, R30: `I` changes only by `Annn`, `Fx1E`, `Fx29`; the stack and SP only by `2nnn`, `00EE`; `ST` only
by `Fx18`. -/
def Obligations.IndexStackAndSoundWriters : Prop :=
  ∀ s t : State, step s = .next t →
    (t.I ≠ s.I → ∃ w i, s.AtWord w ∧ decodeWord w = .insn i ∧
      ((∃ nnn, i = .ldI nnn) ∨ (∃ x, i = .addI x) ∨ (∃ x, i = .ldF x))) ∧
    (t.SP ≠ s.SP ∨ t.stack ≠ s.stack → ∃ w i, s.AtWord w ∧ decodeWord w = .insn i ∧
      ((∃ nnn, i = .call nnn) ∨ i = .ret)) ∧
    (t.ST ≠ s.ST → ∃ w x, s.AtWord w ∧ decodeWord w = .insn (.ldST x))

/-- R50, R164, R32: memory changes only by `Fx33`, `Fx55`; the pixels and the draw flag only by `00E0`, `Dxyn`. -/
def Obligations.MemoryAndScreenWriters : Prop :=
  ∀ s t : State, step s = .next t →
    (t.mem ≠ s.mem → ∃ w i, s.AtWord w ∧ decodeWord w = .insn i ∧
      ((∃ x, i = .ldB x) ∨ (∃ x, i = .storeRegs x))) ∧
    (t.disp ≠ s.disp ∨ t.drawFlag ≠ s.drawFlag → ∃ w i, s.AtWord w ∧ decodeWord w = .insn i ∧
      (i = .cls ∨ (∃ x y n, i = .drw x y n)))

/-- R33, R35, R39: no step changes a key state or a parameter. That every step answers a next state, the steps of a
halted core (R71) and those that end in a fault or a wait (R77) among them, is the model's choice (log 11); that the
parameters stand in the state is log 1. -/
def Obligations.StepsKeepKeysAndParameters : Prop :=
  ∀ s : State, ∃ t, step s = .next t ∧ t.key = s.key ∧ t.params = s.params

/-! ## Control transfer -/

/-- R102, R108: `1nnn` and `Bnnn` set the pc to nnn and to nnn + V0, unreduced, and change nothing else. -/
def Obligations.JumpsSetTheProgramCounter : Prop :=
  EncodedAs 0xF000 0x1000 (fun w => .jp (fieldNNN w)) ∧ EncodedAs 0xF000 0xB000 (fun w => .jpV0 (fieldNNN w)) ∧
  ∀ (nnn : BitVec 12) (s : State),
    (∃ t, Executes (.jp nnn) s t t.pc s.DT {} ∧ t.pc.toNat = nnn.toNat) ∧
    (∃ t, Executes (.jpV0 nnn) s t t.pc s.DT {} ∧ t.pc.toNat = nnn.toNat + (s.reg 0).toNat)

/-- R103: `2nnn` pushes its own address and jumps; with 16 addresses on the stack it faults and changes nothing
(D8). -/
def Obligations.CallPushesItsOwnAddress : Prop :=
  EncodedAs 0xF000 0x2000 (fun w => .call (fieldNNN w)) ∧
  ∀ (nnn : BitVec 12) (s : State),
    (s.SP.val < 16 → ∃ t, Executes (.call nnn) s t (addressOf nnn) s.DT { stack := true } ∧
      t.SP.val = s.SP.val + 1 ∧
      ∀ j : Fin 16, t.stack[j] = if j.val = s.SP.val then s.pc else s.stack[j]) ∧
    (s.SP.val = 16 → Takes (.call nnn) s (.stackOverflow s.pc))

/-- R101: `00EE` goes to the popped address plus 2 and leaves the slot's value; with an empty stack it faults and
changes nothing (D9; the kept slot is D20). -/
def Obligations.ReturnPopsAndAddsTwo : Prop :=
  EncodedAs 0xF0FF 0x00EE (fun _ => .ret) ∧
  ∀ s : State,
    (∀ j : Fin 16, s.SP.val = j.val + 1 → ∃ t, Executes .ret s t (s.stack[j] + 2) s.DT { stack := true } ∧
      t.SP.val = j.val ∧ ∀ k : Fin 16, t.stack[k] = s.stack[k]) ∧
    (s.SP.val = 0 → Takes .ret s (.stackUnderflow s.pc))

/-- R101 with R103: a return right after a call lands on the word after the call, with the stack pointer as before
and every register, `I`, memory and the screen untouched. -/
def Obligations.ReturnUndoesCall : Prop :=
  ∀ (nnn : BitVec 12) (s : State), s.SP.val < 16 →
    ∃ t u, exec (.call nnn) s = .next t ∧ exec .ret t = .next u ∧ u.pc = s.pc + 2 ∧ u.SP = s.SP ∧
      u.DT.toNat = s.DT.toNat - 2 ∧ Frame { stack := true } s u

/-- R104, R105, R100: the skips on an immediate set pc + 4 when the condition holds, else pc + 2, and change nothing
else; they are complements. -/
def Obligations.ImmediateSkips : Prop :=
  EncodedAs 0xF000 0x3000 (fun w => .seByte (fieldX w) (fieldKK w)) ∧
  EncodedAs 0xF000 0x4000 (fun w => .sneByte (fieldX w) (fieldKK w)) ∧
  ∀ (x : Reg) (kk : Byte) (s : State),
    (∃ t, Executes (.seByte x kk) s t (if s.reg x = kk then s.pc + 4 else s.pc + 2) s.DT {}) ∧
    (∃ t, Executes (.sneByte x kk) s t (if s.reg x = kk then s.pc + 2 else s.pc + 4) s.DT {})

/-- R106, R107, R100: the skips on two registers, bits 3..0 of the word being ignored (D16). With x = y, `5xy0`
always skips and `9xy0` never does. -/
def Obligations.RegisterSkips : Prop :=
  EncodedAs 0xF000 0x5000 (fun w => .seReg (fieldX w) (fieldY w)) ∧
  EncodedAs 0xF000 0x9000 (fun w => .sneReg (fieldX w) (fieldY w)) ∧
  ∀ (x y : Reg) (s : State),
    (∃ t, Executes (.seReg x y) s t (if s.reg x = s.reg y then s.pc + 4 else s.pc + 2) s.DT {}) ∧
    (∃ t, Executes (.sneReg x y) s t (if s.reg x = s.reg y then s.pc + 2 else s.pc + 4) s.DT {})

/-- R180, R181, R188: the key skips test the key named by Vx; Vx above 15 names no key and faults, nothing changing
(D10). -/
def Obligations.KeySkips : Prop :=
  EncodedAs 0xF0FF 0xE09E (fun w => .skp (fieldX w)) ∧ EncodedAs 0xF0FF 0xE0A1 (fun w => .sknp (fieldX w)) ∧
  ∀ (x : Reg) (s : State),
    (∀ k : Fin 16, (s.reg x).toNat = k.val →
      (∃ t, Executes (.skp x) s t (if s.keyDown? k = true then s.pc + 4 else s.pc + 2) s.DT {}) ∧
      (∃ t, Executes (.sknp x) s t (if s.keyDown? k = true then s.pc + 2 else s.pc + 4) s.DT {})) ∧
    (15 < (s.reg x).toNat → Takes (.skp x) s (.keyIndexOutOfRange (s.reg x) s.pc) ∧
      Takes (.sknp x) s (.keyIndexOutOfRange (s.reg x) s.pc))

/-! ## Registers and arithmetic -/

/-- R120, R121, R122: load immediate, add immediate mod 256 with no flag, copy. Only Vx changes (VF too only when it
is Vx). -/
def Obligations.LoadsAndPlainAdd : Prop :=
  EncodedAs 0xF000 0x6000 (fun w => .ldByte (fieldX w) (fieldKK w)) ∧
  EncodedAs 0xF000 0x7000 (fun w => .addByte (fieldX w) (fieldKK w)) ∧
  EncodedAs 0xF00F 0x8000 (fun w => .ldReg (fieldX w) (fieldY w)) ∧
  ∀ (x y : Reg) (kk : Byte) (s : State),
    (∃ t, Executes (.ldByte x kk) s t (s.pc + 2) s.DT { regs := [x] } ∧ t.reg x = kk) ∧
    (∃ t, Executes (.addByte x kk) s t (s.pc + 2) s.DT { regs := [x] } ∧
      (t.reg x).toNat = ((s.reg x).toNat + kk.toNat) % 256) ∧
    (∃ t, Executes (.ldReg x y) s t (s.pc + 2) s.DT { regs := [x] } ∧ t.reg x = s.reg y)

/-- R123, R124, R125: OR, AND, XOR, bit by bit; VF is unchanged unless it is Vx. -/
def Obligations.BitwiseLogic : Prop :=
  EncodedAs 0xF00F 0x8001 (fun w => .orReg (fieldX w) (fieldY w)) ∧
  EncodedAs 0xF00F 0x8002 (fun w => .andReg (fieldX w) (fieldY w)) ∧
  EncodedAs 0xF00F 0x8003 (fun w => .xorReg (fieldX w) (fieldY w)) ∧
  ∀ (x y : Reg) (s : State),
    (∃ t, Executes (.orReg x y) s t (s.pc + 2) s.DT { regs := [x] } ∧
      ∀ b, (t.reg x).getLsbD b = ((s.reg x).getLsbD b || (s.reg y).getLsbD b)) ∧
    (∃ t, Executes (.andReg x y) s t (s.pc + 2) s.DT { regs := [x] } ∧
      ∀ b, (t.reg x).getLsbD b = ((s.reg x).getLsbD b && (s.reg y).getLsbD b)) ∧
    (∃ t, Executes (.xorReg x y) s t (s.pc + 2) s.DT { regs := [x] } ∧
      ∀ b, (t.reg x).getLsbD b = ((s.reg x).getLsbD b != (s.reg y).getLsbD b))

/-- R126 and the `8xy4` row of R133, `Sequential` (D12): the sum mod 256 in Vx, the carry in VF, the flag written
last, for every x and y, VF among them; likewise under `Unspecified` when VF is no operand. -/
def Obligations.AddWithCarry : Prop :=
  EncodedAs 0xF00F 0x8004 (fun w => .addReg (fieldX w) (fieldY w)) ∧
  ∀ (x y : Reg) (s : State) (a b : Nat), a = (s.reg x).toNat → b = (s.reg y).toNat →
    (s.params.vfAlias = .sequential ∨ (x ≠ VF ∧ y ≠ VF)) →
    ∃ t, Executes (.addReg x y) s t (s.pc + 2) s.DT { regs := [x, VF] } ∧
      (t.reg VF).toNat = (if 256 ≤ a + b then 1 else 0) ∧ (x ≠ VF → (t.reg x).toNat = (a + b) % 256)

/-- R127 and the `8xy5` row of R133, `Sequential` (D12): the operands swap on underflow, the flag is a strict
comparison, and an operand VF is read after the flag was written. -/
def Obligations.SubtractSwapping : Prop :=
  EncodedAs 0xF00F 0x8005 (fun w => .sub (fieldX w) (fieldY w)) ∧
  ∀ (x y : Reg) (s : State) (a b : Nat), a = (s.reg x).toNat → b = (s.reg y).toNat →
    (s.params.vfAlias = .sequential ∨ (x ≠ VF ∧ y ≠ VF)) →
    ∃ t, Executes (.sub x y) s t (s.pc + 2) s.DT { regs := [x, VF] } ∧
      (x ≠ VF → y ≠ VF → (t.reg VF).toNat = (if b < a then 1 else 0) ∧
        (t.reg x).toNat = (if b < a then a - b else b - a)) ∧
      (x = VF → y ≠ VF → (t.reg VF).toNat = (if b < a then (257 - b) % 256 else b)) ∧
      (x ≠ VF → y = VF → (t.reg VF).toNat = (if b < a then 1 else 0) ∧
        (t.reg x).toNat = (if b < a then a - 1 else (256 - a) % 256)) ∧
      (x = VF → y = VF → (t.reg VF).toNat = 0)

/-- R129 and the `8xy7` row of R133, `Sequential` (D12), under both values of `SUBN_UNDERFLOW` (D13): the flag is 1
when Vx < Vy, the result is Vy - Vx, wrapped or with the operands swapped, from the values read after the flag
write. -/
def Obligations.ReverseSubtract : Prop :=
  EncodedAs 0xF00F 0x8007 (fun w => .subn (fieldX w) (fieldY w)) ∧
  ∀ (x y : Reg) (s : State) (a b less : Nat) (result : Nat → Nat → Nat),
    a = (s.reg x).toNat → b = (s.reg y).toNat → less = (if a < b then 1 else 0) →
    (s.params.vfAlias = .sequential ∨ (x ≠ VF ∧ y ≠ VF)) →
    (∀ p q, result p q = match s.params.subnUnderflow with
      | .wrap => (q + 256 - p) % 256
      | .swap => if p ≤ q then q - p else p - q) →
    ∃ t, Executes (.subn x y) s t (s.pc + 2) s.DT { regs := [x, VF] } ∧
      (x ≠ VF → y ≠ VF → (t.reg VF).toNat = less ∧ (t.reg x).toNat = result a b) ∧
      (x = VF → y ≠ VF → (t.reg VF).toNat = result less b) ∧
      (x ≠ VF → y = VF → (t.reg VF).toNat = less ∧ (t.reg x).toNat = result a less) ∧
      (x = VF → y = VF → (t.reg VF).toNat = 0)

/-- R128, R130 and the shift rows of R133 (D12), under `Sequential` for every x and under `Unspecified` for x not F:
one bit, filled with 0, the bit shifted out in VF; for x = F the flag write comes first. Vy is not read for any y;
that a shift with y = F is not an aliased one under `Unspecified` is the model's choice (log 9). -/
def Obligations.ShiftsByOne : Prop :=
  EncodedAs 0xF00F 0x8006 (fun w => .shr (fieldX w) (fieldY w)) ∧
  EncodedAs 0xF00F 0x800E (fun w => .shl (fieldX w) (fieldY w)) ∧
  ∀ (x y : Reg) (s : State) (a : Nat), a = (s.reg x).toNat → (s.params.vfAlias = .sequential ∨ x ≠ VF) →
    (∃ t, Executes (.shr x y) s t (s.pc + 2) s.DT { regs := [x, VF] } ∧
      (x ≠ VF → (t.reg VF).toNat = a % 2 ∧ (t.reg x).toNat = a / 2) ∧ (x = VF → (t.reg VF).toNat = 0)) ∧
    (∃ t, Executes (.shl x y) s t (s.pc + 2) s.DT { regs := [x, VF] } ∧
      (x ≠ VF → (t.reg VF).toNat = a / 128 ∧ (t.reg x).toNat = 2 * a % 256) ∧
      (x = VF → (t.reg VF).toNat = 2 * (a / 128)))

/-- R133, `VF_ALIAS = Unspecified` (D12): each register an aliased flag-setting instruction writes holds a fresh
draw, VF first, then Vx where x is not F. The order of the two draws is the model's (log 9). -/
def Obligations.AliasedFlagsAreFreeWhenUnspecified : Prop :=
  ∀ (x y : Reg) (s : State) (i : Instr), s.params.vfAlias = .unspecified →
    ((i = .addReg x y ∨ i = .sub x y ∨ i = .subn x y) ∧ (x = VF ∨ y = VF) ∨
      (i = .shr x y ∨ i = .shl x y) ∧ x = VF) →
    ∃ t, Executes i s t (s.pc + 2) s.DT { regs := [x, VF], draws := true } ∧
      t.reg VF = Config.freeByte s.draws ∧
      (x = VF → t.draws = s.draws + 1) ∧
      (x ≠ VF → t.reg x = Config.freeByte (s.draws + 1) ∧ t.draws = s.draws + 2)

/-- R131 (D21): `Cxkk` writes a fresh free byte AND kk, so a bit clear in kk is 0 in the result. -/
def Obligations.RandomByteMasked : Prop :=
  EncodedAs 0xF000 0xC000 (fun w => .rnd (fieldX w) (fieldKK w)) ∧
  ∀ (x : Reg) (kk : Byte) (s : State),
    ∃ t, Executes (.rnd x kk) s t (s.pc + 2) s.DT { regs := [x], draws := true } ∧ t.draws = s.draws + 1 ∧
      ∀ b, (t.reg x).getLsbD b = ((Config.freeByte s.draws).getLsbD b && kk.getLsbD b)

/-! ## Index register and memory transfers -/

/-- R140, R141, R142: `Annn` sets I to nnn, `Fx1E` adds Vx mod 2^16 with no flag (D11), `Fx29` sets I to Vx × 5 for
every Vx (D32). -/
def Obligations.IndexRegisterWrites : Prop :=
  EncodedAs 0xF000 0xA000 (fun w => .ldI (fieldNNN w)) ∧ EncodedAs 0xF0FF 0xF01E (fun w => .addI (fieldX w)) ∧
  EncodedAs 0xF0FF 0xF029 (fun w => .ldF (fieldX w)) ∧
  ∀ (x : Reg) (nnn : BitVec 12) (s : State),
    (∃ t, Executes (.ldI nnn) s t (s.pc + 2) s.DT { index := true } ∧ t.I.toNat = nnn.toNat) ∧
    (∃ t, Executes (.addI x) s t (s.pc + 2) s.DT { index := true } ∧
      t.I.toNat = (s.I.toNat + (s.reg x).toNat) % 65536) ∧
    (∃ t, Executes (.ldF x) s t (s.pc + 2) s.DT { index := true } ∧ t.I.toNat = (s.reg x).toNat * 5)

/-- R143: `Fx33` stores hundreds, tens and units at I, I+1, I+2 and changes no other byte, register or `I`; with
I > 4093 it faults and writes nothing (D5). -/
def Obligations.StoresDecimalDigits : Prop :=
  EncodedAs 0xF0FF 0xF033 (fun w => .ldB (fieldX w)) ∧
  ∀ (x : Reg) (s : State) (v : Nat), v = (s.reg x).toNat →
    (s.I.toNat + 2 ≤ 4095 →
      ∃ t, Executes (.ldB x) s t (s.pc + 2) s.DT { base := s.I.toNat, len := 3 } ∧
        (t.byteAt s.I.toNat).toNat = v / 100 ∧ (t.byteAt (s.I.toNat + 1)).toNat = v / 10 % 10 ∧
        (t.byteAt (s.I.toNat + 2)).toNat = v % 10) ∧
    (4095 < s.I.toNat + 2 → Takes (.ldB x) s (.memoryOutOfRange .write (max s.I.toNat 4096) s.pc))

/-- R144: `Fx55` stores V0..Vx inclusive from I up and changes no other byte, register or `I`; a range that leaves
memory faults and writes nothing (D5, D20). -/
def Obligations.StoresRegisters : Prop :=
  EncodedAs 0xF0FF 0xF055 (fun w => .storeRegs (fieldX w)) ∧
  ∀ (x : Reg) (s : State),
    (s.I.toNat + x.val ≤ 4095 →
      ∃ t, Executes (.storeRegs x) s t (s.pc + 2) s.DT { base := s.I.toNat, len := x.val + 1 } ∧
        ∀ j : Reg, j ≤ x → t.byteAt (s.I.toNat + j.val) = s.reg j) ∧
    (4095 < s.I.toNat + x.val →
      Takes (.storeRegs x) s (.memoryOutOfRange .write (max s.I.toNat 4096) s.pc))

/-- R145: `Fx65` loads V0..Vx inclusive from I up and changes no other register, no byte and not `I`; a range that
leaves memory faults and loads nothing (D5, D20). -/
def Obligations.LoadsRegisters : Prop :=
  EncodedAs 0xF0FF 0xF065 (fun w => .loadRegs (fieldX w)) ∧
  ∀ (x : Reg) (s : State),
    (s.I.toNat + x.val ≤ 4095 →
      ∃ t, Executes (.loadRegs x) s t (s.pc + 2) s.DT { regs := (List.finRange 16).filter (fun j => j ≤ x) } ∧
        ∀ j : Reg, j ≤ x → t.reg j = s.byteAt (s.I.toNat + j.val)) ∧
    (4095 < s.I.toNat + x.val →
      Takes (.loadRegs x) s (.memoryOutOfRange .read (max s.I.toNat 4096) s.pc))

/-- R144 with R145 and R60: loading back what `Fx55` stored, after any change to the registers, restores V0..Vx and
leaves the others and memory alone. -/
def Obligations.LoadRestoresStoredRegisters : Prop :=
  ∀ (x : Reg) (s t : State) (regs : Vector Byte 16), exec (.storeRegs x) s = .next t → t.status = .running →
    s.status = .running →
    ∃ u, exec (.loadRegs x) { t with V := regs } = .next u ∧ (∀ j : Reg, j ≤ x → u.reg j = s.reg j) ∧
      (∀ j : Reg, x < j → u.reg j = regs[j]) ∧ u.mem = t.mem ∧ u.I = s.I

/-! ## Display -/

/-- R160: `00E0` clears all 2048 pixels and sets the draw flag, also when the screen was blank (D19); VF is not
written. -/
def Obligations.ClearDisplay : Prop :=
  EncodedAs 0xF0FF 0x00E0 (fun _ => .cls) ∧
  ∀ s : State, ∃ t, Executes .cls s t (s.pc + 2) s.DT { screen := true } ∧
    (∀ r c, t.pixel r c = false) ∧ t.drawFlag = true

/-- R161, R163: `Dxyn` flips exactly the pixels its sprite covers, wrapping on both axes, reports in VF whether one
went from 1 to 0, and sets the draw flag; n = 0 draws nothing and checks no range; a range that leaves memory faults
and changes nothing (D4, D5, D12, D19). When VF is a position operand under `Unspecified`, VF is a free byte instead
(log 9). -/
def Obligations.DrawFlipsTheSpritePixels : Prop :=
  EncodedAs 0xF000 0xD000 (fun w => .drw (fieldX w) (fieldY w) (fieldN w)) ∧
  ∀ (x y : Reg) (n : Nat) (s : State), n ≤ 15 →
    (n = 0 ∨ s.I.toNat + n - 1 ≤ 4095 →
      ∃ t, Executes (.drw x y n) s t (s.pc + 2) s.DT
          { regs := [VF], screen := true,
            draws := s.params.vfAlias = .unspecified ∧ (x = VF ∨ y = VF) } ∧
        (∀ r c, (Covers s x y n r c → t.pixel r c = !s.pixel r c) ∧
          (¬ Covers s x y n r c → t.pixel r c = s.pixel r c)) ∧
        t.drawFlag = true ∧
        (s.params.vfAlias = .sequential ∨ (x ≠ VF ∧ y ≠ VF) →
          ((∃ r c, Covers s x y n r c ∧ s.pixel r c = true) → t.reg VF = 1) ∧
          ((¬ ∃ r c, Covers s x y n r c ∧ s.pixel r c = true) → t.reg VF = 0)) ∧
        (s.params.vfAlias = .unspecified → x = VF ∨ y = VF →
          t.reg VF = Config.freeByte s.draws ∧ t.draws = s.draws + 1)) ∧
    (0 < n → 4095 < s.I.toNat + n - 1 →
      Takes (.drw x y n) s (.memoryOutOfRange .read (max s.I.toNat 4096) s.pc))

/-- From R161's pseudocode: the same sprite drawn twice at the same place restores the display, and the second draw
reports VF = 1 exactly if the sprite covers a pixel that was 0 before the first (on a blank screen: if it has a 1 bit;
R161's corner case says it without that condition, log 25). -/
def Obligations.DrawingTwiceRestoresTheDisplay : Prop :=
  ∀ (x y : Reg) (n : Nat) (s : State), n ≤ 15 → x ≠ VF → y ≠ VF → (n = 0 ∨ s.I.toNat + n - 1 ≤ 4095) →
    ∃ t u, exec (.drw x y n) s = .next t ∧ exec (.drw x y n) t = .next u ∧
      (∀ r c, u.pixel r c = s.pixel r c) ∧
      ((∃ r c, Covers s x y n r c ∧ s.pixel r c = false) → u.reg VF = 1) ∧
      ((¬ ∃ r c, Covers s x y n r c ∧ s.pixel r c = false) → u.reg VF = 0)

/-! ## Keys and timers -/

/-- R182, R186, R187: `Fx07` reads DT before its step's tick; `Fx15` sets DT and the tick then runs on it; `Fx18` sets
ST, which nothing decrements. -/
def Obligations.TimerReadAndWrites : Prop :=
  EncodedAs 0xF0FF 0xF007 (fun w => .ldVxDT (fieldX w)) ∧ EncodedAs 0xF0FF 0xF015 (fun w => .ldDT (fieldX w)) ∧
  EncodedAs 0xF0FF 0xF018 (fun w => .ldST (fieldX w)) ∧
  ∀ (x : Reg) (s : State),
    (∃ t, Executes (.ldVxDT x) s t (s.pc + 2) s.DT { regs := [x] } ∧ t.reg x = s.DT) ∧
    (∃ t, Executes (.ldDT x) s t (s.pc + 2) (s.reg x) { delay := true }) ∧
    (∃ t, Executes (.ldST x) s t (s.pc + 2) s.DT { sound := true } ∧ t.ST = s.reg x)

/-- R183, R184, R185: `Fx0A` with a key pressed writes the lowest pressed index; with none pressed the step leaves the
state exactly as it was. -/
def Obligations.KeyWaitTakesTheLowestKey : Prop :=
  EncodedAs 0xF0FF 0xF00A (fun w => .ldVxK (fieldX w)) ∧
  ∀ (x : Reg) (s : State),
    (∀ k : Fin 16, s.keyDown? k = true → (∀ j : Fin 16, j < k → s.keyDown? j = false) →
      ∃ t, Executes (.ldVxK x) s t (s.pc + 2) s.DT { regs := [x] } ∧ (t.reg x).toNat = k.val) ∧
    ((∀ k, s.keyDown? k = false) → exec (.ldVxK x) s = .next s)

/-! ## Ends and hangs of a run -/

/-- R102, R254, R255 (D27): from an idle state every later step changes only the delay timer, which falls by one a
step down to 0, and the state stays idle. (`stage`, the record of steps, is the model's own: log 26.) -/
def Obligations.IdleLoopOnlyTicks : Prop :=
  ∀ (s : State) (k : Nat), s.Idle →
    ∃ t, runSteps k s = .next t ∧ t.Idle ∧ t.DT.toNat = s.DT.toNat - k ∧
      t = { s with DT := t.DT, stage := if k = 0 then s.stage else .stepped }

/-- R84, R254, R255 (D14, D15, D27, D28): a soft-invalid stall under `Original` never ends: every later step repeats
it, and only the delay timer changes. (`stage`, the record of steps, is the model's own: log 26.) -/
def Obligations.StallNeverEnds : Prop :=
  ∀ (s : State) (w : Half) (k : Nat), s.StalledAt w →
    ∃ t, runSteps k s = .next t ∧ t.StalledAt w ∧ t.DT.toNat = s.DT.toNat - k ∧
      t = { s with DT := t.DT, stage := if k = 0 then s.stage else .stepped } ∧ stepOutcome t = .stalled w s.pc

/-- R185, R215, R255: a core that waits for a key waits, unchanged, for any number of steps; once the host presses a
key, the next step writes the lowest pressed index and goes on. (`stage`, the record of steps, is the model's own:
log 26.) -/
def Obligations.KeyWaitHoldsUntilAKey : Prop :=
  ∀ (s : State) (n : Nat), s.WaitingForKey →
    runSteps n s = .next { s with stage := if n = 0 then s.stage else .stepped } ∧ stepOutcome s = .blocked ∧
    ∀ k, k ≤ 15 → ∃ t u x, hostCall (.keyDown k) s = .next (.done, t) ∧ step t = .next u ∧
      fetchWord s = encode (.ldVxK x) ∧ (u.reg x).toNat = k ∧ u.pc = s.pc + 2 ∧ stepOutcome t = .executed

/-- R248: without a load the first step fetches 0x0000 and halts with `InvalidOpcode(0x0000, 0x200)`, whatever the
font and the parameters. -/
def Obligations.UnloadedCoreHaltsAtOnce : Prop :=
  ∀ (p : Params) (font : List Byte),
    step (State.create p font) =
      .next { (State.create p font).stepped with status := .halted (.invalidOpcode 0x0000 0x200) } ∧
    stepOutcome (State.create p font) = .halted (.invalidOpcode 0x0000 0x200)

/-! ## The host interface -/

/-- R223 to R227: `key_down` and `key_up` change one key state; an index above 15 has no move; `display` returns the
pixels and changes nothing; `take_draw_flag` returns the flag and clears it. -/
def Obligations.HostKeysDisplayAndFlag : Prop :=
  ∀ (s : State) (k : Nat),
    (∀ h : k < 16, ∃ t u, hostCall (.keyDown k) s = .next (.done, t) ∧ hostCall (.keyUp k) s = .next (.done, u) ∧
      (∀ j : Fin 16, t.keyDown? j = (decide (j = ⟨k, h⟩) || s.keyDown? j)) ∧
      (∀ j : Fin 16, u.keyDown? j = (!decide (j = ⟨k, h⟩) && s.keyDown? j)) ∧
      t = { s with key := t.key } ∧ u = { s with key := u.key }) ∧
    (15 < k → hostCall (.keyDown k) s = .refused (.keyIndexContract k) ∧
      hostCall (.keyUp k) s = .refused (.keyIndexContract k)) ∧
    hostCall .display s = .next (.grid s.disp, s) ∧
    hostCall .takeDrawFlag s = .next (.drawFlag s.drawFlag, { s with drawFlag := false })

/-- R242 to R245: before any step and any load that succeeded (R246, D23; logs 12, 26), an image of at most 3584
bytes is copied to 0x200 up, byte i to 0x200 + i, and all bytes beyond it stay 0; a longer image and one that cannot
be obtained (`none`, log 24) change nothing, and a load may then be tried again (log 27). No field but memory
changes, beside the model's record of the load; registers, pc, stack, timers, display and status hold their creation
values, and the keys, which the host may have changed before, stay as they are (log 28). -/
def Obligations.LoaderContract : Prop :=
  ∀ (s : State) (image : List Byte), s.stage = .fresh →
    hostCall (.loadProgram none) s = .next (.loaded .ioFailure, s) ∧
    (3584 < image.length → hostCall (.loadProgram (some image)) s = .next (.loaded .programTooLarge, s)) ∧
    (image.length ≤ 3584 → ∃ t, hostCall (.loadProgram (some image)) s = .next (.loaded .ok, t) ∧
      (∀ i, i < image.length → some (t.byteAt (0x200 + i)) = image[i]?) ∧
      (∀ a, a < 0x200 ∨ 0x200 + image.length ≤ a → t.byteAt a = s.byteAt a) ∧
      (s.Inv → t.AsCreated ∧ ∀ a, 0x200 + image.length ≤ a → a ≤ 4095 → t.byteAt a = 0) ∧
      t = { s with mem := t.mem, stage := .loaded })

/-- R246, R247, R227, D23: creation takes a load, for every font and all parameters; every step of a running core,
from any state, leaves one on which a load has no move, and so does a load that succeeded; and no later step or host
action makes one possible again. That key changes and flag reads before the first step leave a load possible is the
model's choice (log 28), and so is that a failed load does not count (log 27). -/
def Obligations.LoadsOnlyBeforeTheFirstStep : Prop :=
  (∀ (p : Params) (font : List Byte), (State.create p font).stage = .fresh) ∧
  (∀ (s : State) (image : Option (List Byte)),
    (∃ r t, hostCall (.loadProgram image) s = .next (r, t)) ↔ s.stage = .fresh) ∧
  (∀ (s t : State) (image : Option (List Byte)), s.status = .running → step s = .next t →
    hostCall (.loadProgram image) t = .refused .loadNotOnFreshState) ∧
  (∀ (s t : State) (image later : Option (List Byte)), hostCall (.loadProgram image) s = .next (.loaded .ok, t) →
    hostCall (.loadProgram later) t = .refused .loadNotOnFreshState) ∧
  (∀ (c : HostCall) (s t : State) (r : HostReply) (image : Option (List Byte)),
    hostCall (.loadProgram image) s = .refused .loadNotOnFreshState → hostCall c s = .next (r, t) →
    hostCall (.loadProgram image) t = .refused .loadNotOnFreshState) ∧
  (∀ (c : HostCall) (s t : State) (r : HostReply), s.stage = .fresh → hostCall c s = .next (r, t) → c ≠ .step →
    r ≠ .loaded .ok → t.stage = .fresh)

/-- Every host operation that has a move keeps the machine invariant, so it holds along every interleaving of steps
and host actions (R220, R227). -/
def Obligations.HostActionsKeepTheInvariant : Prop :=
  ∀ (c : HostCall) (s t : State) (r : HostReply), s.Inv → hostCall c s = .next (r, t) → t.Inv
end

