-- ==== Sys2Proof/Laws/Decode.lean ====
section
/-! SUPPORT. The fields of a word as numbers (spec/30_encoding.md R81), and the fields of the encoder's words. -/

namespace Sys2Proof.Laws

theorem fieldA_eq (w : Half) : fieldA w = w.toNat / 4096 := by
  have := w.isLt
  simp only [fieldA, BitVec.extractLsb'_toNat, Nat.shiftRight_eq_div_pow]
  omega

theorem fieldX_val (w : Half) : (fieldX w).val = w.toNat / 256 % 16 := by
  simp [fieldX, Nat.shiftRight_eq_div_pow]

theorem fieldY_val (w : Half) : (fieldY w).val = w.toNat / 16 % 16 := by
  simp [fieldY, Nat.shiftRight_eq_div_pow]

theorem fieldN_eq (w : Half) : fieldN w = w.toNat % 16 := by
  simp [fieldN, BitVec.extractLsb'_toNat]

theorem fieldKK_toNat (w : Half) : (fieldKK w).toNat = w.toNat % 256 := by
  simp [fieldKK, BitVec.extractLsb'_toNat]

theorem fieldNNN_toNat (w : Half) : (fieldNNN w).toNat = w.toNat % 4096 := by
  simp [fieldNNN, BitVec.extractLsb'_toNat]

/-- Appended bit strings as numbers: the left one is worth 2 to the right one's width (R11 `++`). -/
theorem toNat_append_eq {m k : Nat} (a : BitVec m) (b : BitVec k) :
    (a ++ b : BitVec (m + k)).toNat = a.toNat * 2 ^ k + b.toNat := by
  rw [BitVec.toNat_append, ← Nat.shiftLeft_add_eq_or_of_lt b.isLt, Nat.shiftLeft_eq]

theorem wordA_toNat (a : BitVec 4) (nnn : BitVec 12) : (wordA a nnn).toNat = a.toNat * 4096 + nnn.toNat :=
  toNat_append_eq a nnn

theorem wordXK_toNat (a : BitVec 4) (x : Reg) (kk : Byte) :
    (wordXK a x kk).toNat = a.toNat * 4096 + x.val * 256 + kk.toNat := by
  have h₁ := toNat_append_eq (a ++ (BitVec.ofFin x : BitVec 4)) kk
  have h₂ := toNat_append_eq a (BitVec.ofFin x : BitVec 4)
  have h₃ : (BitVec.ofFin x : BitVec 4).toNat = x.val := rfl
  have h₄ : (wordXK a x kk).toNat = (a ++ (BitVec.ofFin x : BitVec 4) ++ kk).toNat := rfl
  omega

theorem wordXYN_toNat (a : BitVec 4) (x y : Reg) (n : BitVec 4) :
    (wordXYN a x y n).toNat = a.toNat * 4096 + x.val * 256 + y.val * 16 + n.toNat := by
  have h₁ := toNat_append_eq (a ++ (BitVec.ofFin x : BitVec 4) ++ (BitVec.ofFin y : BitVec 4)) n
  have h₂ := toNat_append_eq (a ++ (BitVec.ofFin x : BitVec 4)) (BitVec.ofFin y : BitVec 4)
  have h₃ := toNat_append_eq a (BitVec.ofFin x : BitVec 4)
  have h₄ : (BitVec.ofFin x : BitVec 4).toNat = x.val := rfl
  have h₅ : (BitVec.ofFin y : BitVec 4).toNat = y.val := rfl
  have h₆ : (wordXYN a x y n).toNat =
    (a ++ (BitVec.ofFin x : BitVec 4) ++ (BitVec.ofFin y : BitVec 4) ++ n).toNat := rfl
  omega

/-- A fetched word as a number (R72). -/
theorem wordOfBytes_toNat (hi lo : Byte) : (wordOfBytes hi lo).toNat = hi.toNat * 256 + lo.toNat :=
  toNat_append_eq hi lo

/-- The two bytes of a word make the word again (R80). -/
theorem wordOfBytes_bytesOfWord (w : Half) :
    wordOfBytes (w.extractLsb' 8 8) (w.extractLsb' 0 8) = w := by
  apply BitVec.eq_of_toNat_eq
  have := w.isLt
  rw [wordOfBytes_toNat]
  simp only [BitVec.extractLsb'_toNat, Nat.shiftRight_eq_div_pow]
  omega

end Sys2Proof.Laws
end

