-- ==== Sys2Proof/Laws/State.lean ====
section
/-! SUPPORT. One lemma per field per update of the state, and per accessor, so that no later proof unfolds a record
update. -/

namespace Sys2Proof.Machine.State

variable (s : State)

/-! ## setReg -/

@[simp] theorem setReg_mem (r : Reg) (b : Byte) : (s.setReg r b).mem = s.mem := rfl
@[simp] theorem setReg_V (r : Reg) (b : Byte) : (s.setReg r b).V = s.V.set r.val b r.isLt := rfl
@[simp] theorem setReg_I (r : Reg) (b : Byte) : (s.setReg r b).I = s.I := rfl
@[simp] theorem setReg_pc (r : Reg) (b : Byte) : (s.setReg r b).pc = s.pc := rfl
@[simp] theorem setReg_stack (r : Reg) (b : Byte) : (s.setReg r b).stack = s.stack := rfl
@[simp] theorem setReg_SP (r : Reg) (b : Byte) : (s.setReg r b).SP = s.SP := rfl
@[simp] theorem setReg_DT (r : Reg) (b : Byte) : (s.setReg r b).DT = s.DT := rfl
@[simp] theorem setReg_ST (r : Reg) (b : Byte) : (s.setReg r b).ST = s.ST := rfl
@[simp] theorem setReg_disp (r : Reg) (b : Byte) : (s.setReg r b).disp = s.disp := rfl
@[simp] theorem setReg_drawFlag (r : Reg) (b : Byte) : (s.setReg r b).drawFlag = s.drawFlag := rfl
@[simp] theorem setReg_key (r : Reg) (b : Byte) : (s.setReg r b).key = s.key := rfl
@[simp] theorem setReg_status (r : Reg) (b : Byte) : (s.setReg r b).status = s.status := rfl
@[simp] theorem setReg_params (r : Reg) (b : Byte) : (s.setReg r b).params = s.params := rfl
@[simp] theorem setReg_draws (r : Reg) (b : Byte) : (s.setReg r b).draws = s.draws := rfl
@[simp] theorem setReg_unwritten (r : Reg) (b : Byte) : (s.setReg r b).unwritten = { s.unwritten with V := s.unwritten.V.set r.val false r.isLt } := rfl
@[simp] theorem setReg_stage (r : Reg) (b : Byte) : (s.setReg r b).stage = s.stage := rfl
@[simp] theorem setReg_byteAt (r : Reg) (b : Byte) (c : Nat) : (s.setReg r b).byteAt c = s.byteAt c := rfl
@[simp] theorem setReg_pixel (r : Reg) (b : Byte) (i : Fin 32) (j : Fin 64) : (s.setReg r b).pixel i j = s.pixel i j := rfl
@[simp] theorem setReg_keyDown (r : Reg) (b : Byte) (j : Fin 16) : (s.setReg r b).keyDown? j = s.keyDown? j := rfl
@[simp] theorem setReg_freeByte (r : Reg) (b : Byte) : (s.setReg r b).freeByte = s.freeByte := rfl

/-! ## setRegsThrough -/

@[simp] theorem setRegsThrough_mem (x : Reg) (v : Vector Byte 16) : (s.setRegsThrough x v).mem = s.mem := rfl
@[simp] theorem setRegsThrough_I (x : Reg) (v : Vector Byte 16) : (s.setRegsThrough x v).I = s.I := rfl
@[simp] theorem setRegsThrough_pc (x : Reg) (v : Vector Byte 16) : (s.setRegsThrough x v).pc = s.pc := rfl
@[simp] theorem setRegsThrough_stack (x : Reg) (v : Vector Byte 16) : (s.setRegsThrough x v).stack = s.stack := rfl
@[simp] theorem setRegsThrough_SP (x : Reg) (v : Vector Byte 16) : (s.setRegsThrough x v).SP = s.SP := rfl
@[simp] theorem setRegsThrough_DT (x : Reg) (v : Vector Byte 16) : (s.setRegsThrough x v).DT = s.DT := rfl
@[simp] theorem setRegsThrough_ST (x : Reg) (v : Vector Byte 16) : (s.setRegsThrough x v).ST = s.ST := rfl
@[simp] theorem setRegsThrough_disp (x : Reg) (v : Vector Byte 16) : (s.setRegsThrough x v).disp = s.disp := rfl
@[simp] theorem setRegsThrough_drawFlag (x : Reg) (v : Vector Byte 16) : (s.setRegsThrough x v).drawFlag = s.drawFlag := rfl
@[simp] theorem setRegsThrough_key (x : Reg) (v : Vector Byte 16) : (s.setRegsThrough x v).key = s.key := rfl
@[simp] theorem setRegsThrough_status (x : Reg) (v : Vector Byte 16) : (s.setRegsThrough x v).status = s.status := rfl
@[simp] theorem setRegsThrough_params (x : Reg) (v : Vector Byte 16) : (s.setRegsThrough x v).params = s.params := rfl
@[simp] theorem setRegsThrough_draws (x : Reg) (v : Vector Byte 16) : (s.setRegsThrough x v).draws = s.draws := rfl
@[simp] theorem setRegsThrough_stage (x : Reg) (v : Vector Byte 16) : (s.setRegsThrough x v).stage = s.stage := rfl
@[simp] theorem setRegsThrough_byteAt (x : Reg) (v : Vector Byte 16) (c : Nat) : (s.setRegsThrough x v).byteAt c = s.byteAt c := rfl
@[simp] theorem setRegsThrough_pixel (x : Reg) (v : Vector Byte 16) (i : Fin 32) (j : Fin 64) : (s.setRegsThrough x v).pixel i j = s.pixel i j := rfl
@[simp] theorem setRegsThrough_keyDown (x : Reg) (v : Vector Byte 16) (j : Fin 16) : (s.setRegsThrough x v).keyDown? j = s.keyDown? j := rfl
@[simp] theorem setRegsThrough_freeByte (x : Reg) (v : Vector Byte 16) : (s.setRegsThrough x v).freeByte = s.freeByte := rfl

/-! ## stepped -/

@[simp] theorem stepped_mem : s.stepped.mem = s.mem := rfl
@[simp] theorem stepped_V : s.stepped.V = s.V := rfl
@[simp] theorem stepped_I : s.stepped.I = s.I := rfl
@[simp] theorem stepped_pc : s.stepped.pc = s.pc := rfl
@[simp] theorem stepped_stack : s.stepped.stack = s.stack := rfl
@[simp] theorem stepped_SP : s.stepped.SP = s.SP := rfl
@[simp] theorem stepped_DT : s.stepped.DT = s.DT := rfl
@[simp] theorem stepped_ST : s.stepped.ST = s.ST := rfl
@[simp] theorem stepped_disp : s.stepped.disp = s.disp := rfl
@[simp] theorem stepped_drawFlag : s.stepped.drawFlag = s.drawFlag := rfl
@[simp] theorem stepped_key : s.stepped.key = s.key := rfl
@[simp] theorem stepped_status : s.stepped.status = s.status := rfl
@[simp] theorem stepped_params : s.stepped.params = s.params := rfl
@[simp] theorem stepped_draws : s.stepped.draws = s.draws := rfl
@[simp] theorem stepped_unwritten : s.stepped.unwritten = s.unwritten := rfl
@[simp] theorem stepped_stage : s.stepped.stage = .stepped := rfl
@[simp] theorem stepped_reg (q : Reg) : s.stepped.reg q = s.reg q := rfl
@[simp] theorem stepped_byteAt (c : Nat) : s.stepped.byteAt c = s.byteAt c := rfl
@[simp] theorem stepped_pixel (i : Fin 32) (j : Fin 64) : s.stepped.pixel i j = s.pixel i j := rfl
@[simp] theorem stepped_keyDown (j : Fin 16) : s.stepped.keyDown? j = s.keyDown? j := rfl
@[simp] theorem stepped_freeByte : s.stepped.freeByte = s.freeByte := rfl
@[simp] theorem stepped_lacks (q : RegName) : s.stepped.lacks q = s.lacks q := rfl

/-! ## setI -/

@[simp] theorem setI_mem (a : Half) : (s.setI a).mem = s.mem := rfl
@[simp] theorem setI_V (a : Half) : (s.setI a).V = s.V := rfl
@[simp] theorem setI_I (a : Half) : (s.setI a).I = a := rfl
@[simp] theorem setI_pc (a : Half) : (s.setI a).pc = s.pc := rfl
@[simp] theorem setI_stack (a : Half) : (s.setI a).stack = s.stack := rfl
@[simp] theorem setI_SP (a : Half) : (s.setI a).SP = s.SP := rfl
@[simp] theorem setI_DT (a : Half) : (s.setI a).DT = s.DT := rfl
@[simp] theorem setI_ST (a : Half) : (s.setI a).ST = s.ST := rfl
@[simp] theorem setI_disp (a : Half) : (s.setI a).disp = s.disp := rfl
@[simp] theorem setI_drawFlag (a : Half) : (s.setI a).drawFlag = s.drawFlag := rfl
@[simp] theorem setI_key (a : Half) : (s.setI a).key = s.key := rfl
@[simp] theorem setI_status (a : Half) : (s.setI a).status = s.status := rfl
@[simp] theorem setI_params (a : Half) : (s.setI a).params = s.params := rfl
@[simp] theorem setI_draws (a : Half) : (s.setI a).draws = s.draws := rfl
@[simp] theorem setI_unwritten (a : Half) : (s.setI a).unwritten = { s.unwritten with I := false } := rfl
@[simp] theorem setI_stage (a : Half) : (s.setI a).stage = s.stage := rfl
@[simp] theorem setI_reg (a : Half) (q : Reg) : (s.setI a).reg q = s.reg q := rfl
@[simp] theorem setI_byteAt (a : Half) (c : Nat) : (s.setI a).byteAt c = s.byteAt c := rfl
@[simp] theorem setI_pixel (a : Half) (i : Fin 32) (j : Fin 64) : (s.setI a).pixel i j = s.pixel i j := rfl
@[simp] theorem setI_keyDown (a : Half) (j : Fin 16) : (s.setI a).keyDown? j = s.keyDown? j := rfl
@[simp] theorem setI_freeByte (a : Half) : (s.setI a).freeByte = s.freeByte := rfl

/-! ## setDT -/

@[simp] theorem setDT_mem (b : Byte) : (s.setDT b).mem = s.mem := rfl
@[simp] theorem setDT_V (b : Byte) : (s.setDT b).V = s.V := rfl
@[simp] theorem setDT_I (b : Byte) : (s.setDT b).I = s.I := rfl
@[simp] theorem setDT_pc (b : Byte) : (s.setDT b).pc = s.pc := rfl
@[simp] theorem setDT_stack (b : Byte) : (s.setDT b).stack = s.stack := rfl
@[simp] theorem setDT_SP (b : Byte) : (s.setDT b).SP = s.SP := rfl
@[simp] theorem setDT_DT (b : Byte) : (s.setDT b).DT = b := rfl
@[simp] theorem setDT_ST (b : Byte) : (s.setDT b).ST = s.ST := rfl
@[simp] theorem setDT_disp (b : Byte) : (s.setDT b).disp = s.disp := rfl
@[simp] theorem setDT_drawFlag (b : Byte) : (s.setDT b).drawFlag = s.drawFlag := rfl
@[simp] theorem setDT_key (b : Byte) : (s.setDT b).key = s.key := rfl
@[simp] theorem setDT_status (b : Byte) : (s.setDT b).status = s.status := rfl
@[simp] theorem setDT_params (b : Byte) : (s.setDT b).params = s.params := rfl
@[simp] theorem setDT_draws (b : Byte) : (s.setDT b).draws = s.draws := rfl
@[simp] theorem setDT_unwritten (b : Byte) : (s.setDT b).unwritten = { s.unwritten with DT := false } := rfl
@[simp] theorem setDT_stage (b : Byte) : (s.setDT b).stage = s.stage := rfl
@[simp] theorem setDT_reg (b : Byte) (q : Reg) : (s.setDT b).reg q = s.reg q := rfl
@[simp] theorem setDT_byteAt (b : Byte) (c : Nat) : (s.setDT b).byteAt c = s.byteAt c := rfl
@[simp] theorem setDT_pixel (b : Byte) (i : Fin 32) (j : Fin 64) : (s.setDT b).pixel i j = s.pixel i j := rfl
@[simp] theorem setDT_keyDown (b : Byte) (j : Fin 16) : (s.setDT b).keyDown? j = s.keyDown? j := rfl
@[simp] theorem setDT_freeByte (b : Byte) : (s.setDT b).freeByte = s.freeByte := rfl

/-! ## setST -/

@[simp] theorem setST_mem (b : Byte) : (s.setST b).mem = s.mem := rfl
@[simp] theorem setST_V (b : Byte) : (s.setST b).V = s.V := rfl
@[simp] theorem setST_I (b : Byte) : (s.setST b).I = s.I := rfl
@[simp] theorem setST_pc (b : Byte) : (s.setST b).pc = s.pc := rfl
@[simp] theorem setST_stack (b : Byte) : (s.setST b).stack = s.stack := rfl
@[simp] theorem setST_SP (b : Byte) : (s.setST b).SP = s.SP := rfl
@[simp] theorem setST_DT (b : Byte) : (s.setST b).DT = s.DT := rfl
@[simp] theorem setST_ST (b : Byte) : (s.setST b).ST = b := rfl
@[simp] theorem setST_disp (b : Byte) : (s.setST b).disp = s.disp := rfl
@[simp] theorem setST_drawFlag (b : Byte) : (s.setST b).drawFlag = s.drawFlag := rfl
@[simp] theorem setST_key (b : Byte) : (s.setST b).key = s.key := rfl
@[simp] theorem setST_status (b : Byte) : (s.setST b).status = s.status := rfl
@[simp] theorem setST_params (b : Byte) : (s.setST b).params = s.params := rfl
@[simp] theorem setST_draws (b : Byte) : (s.setST b).draws = s.draws := rfl
@[simp] theorem setST_unwritten (b : Byte) : (s.setST b).unwritten = s.unwritten := rfl
@[simp] theorem setST_stage (b : Byte) : (s.setST b).stage = s.stage := rfl
@[simp] theorem setST_reg (b : Byte) (q : Reg) : (s.setST b).reg q = s.reg q := rfl
@[simp] theorem setST_byteAt (b : Byte) (c : Nat) : (s.setST b).byteAt c = s.byteAt c := rfl
@[simp] theorem setST_pixel (b : Byte) (i : Fin 32) (j : Fin 64) : (s.setST b).pixel i j = s.pixel i j := rfl
@[simp] theorem setST_keyDown (b : Byte) (j : Fin 16) : (s.setST b).keyDown? j = s.keyDown? j := rfl
@[simp] theorem setST_freeByte (b : Byte) : (s.setST b).freeByte = s.freeByte := rfl
@[simp] theorem setST_lacks (b : Byte) (q : RegName) : (s.setST b).lacks q = s.lacks q := rfl

/-! ## storeBytes -/

@[simp] theorem storeBytes_mem (a : Nat) (bs : List Byte) : (s.storeBytes a bs).mem = s.mem.writeBytes a bs := rfl
@[simp] theorem storeBytes_V (a : Nat) (bs : List Byte) : (s.storeBytes a bs).V = s.V := rfl
@[simp] theorem storeBytes_I (a : Nat) (bs : List Byte) : (s.storeBytes a bs).I = s.I := rfl
@[simp] theorem storeBytes_pc (a : Nat) (bs : List Byte) : (s.storeBytes a bs).pc = s.pc := rfl
@[simp] theorem storeBytes_stack (a : Nat) (bs : List Byte) : (s.storeBytes a bs).stack = s.stack := rfl
@[simp] theorem storeBytes_SP (a : Nat) (bs : List Byte) : (s.storeBytes a bs).SP = s.SP := rfl
@[simp] theorem storeBytes_DT (a : Nat) (bs : List Byte) : (s.storeBytes a bs).DT = s.DT := rfl
@[simp] theorem storeBytes_ST (a : Nat) (bs : List Byte) : (s.storeBytes a bs).ST = s.ST := rfl
@[simp] theorem storeBytes_disp (a : Nat) (bs : List Byte) : (s.storeBytes a bs).disp = s.disp := rfl
@[simp] theorem storeBytes_drawFlag (a : Nat) (bs : List Byte) : (s.storeBytes a bs).drawFlag = s.drawFlag := rfl
@[simp] theorem storeBytes_key (a : Nat) (bs : List Byte) : (s.storeBytes a bs).key = s.key := rfl
@[simp] theorem storeBytes_status (a : Nat) (bs : List Byte) : (s.storeBytes a bs).status = s.status := rfl
@[simp] theorem storeBytes_params (a : Nat) (bs : List Byte) : (s.storeBytes a bs).params = s.params := rfl
@[simp] theorem storeBytes_draws (a : Nat) (bs : List Byte) : (s.storeBytes a bs).draws = s.draws := rfl
@[simp] theorem storeBytes_unwritten (a : Nat) (bs : List Byte) : (s.storeBytes a bs).unwritten = s.unwritten := rfl
@[simp] theorem storeBytes_stage (a : Nat) (bs : List Byte) : (s.storeBytes a bs).stage = s.stage := rfl
@[simp] theorem storeBytes_reg (a : Nat) (bs : List Byte) (q : Reg) : (s.storeBytes a bs).reg q = s.reg q := rfl
@[simp] theorem storeBytes_pixel (a : Nat) (bs : List Byte) (i : Fin 32) (j : Fin 64) : (s.storeBytes a bs).pixel i j = s.pixel i j := rfl
@[simp] theorem storeBytes_keyDown (a : Nat) (bs : List Byte) (j : Fin 16) : (s.storeBytes a bs).keyDown? j = s.keyDown? j := rfl
@[simp] theorem storeBytes_freeByte (a : Nat) (bs : List Byte) : (s.storeBytes a bs).freeByte = s.freeByte := rfl
@[simp] theorem storeBytes_lacks (a : Nat) (bs : List Byte) (q : RegName) : (s.storeBytes a bs).lacks q = s.lacks q := rfl

/-! ## push -/

@[simp] theorem push_mem (a : Half) (h : s.SP.val < 16) : (s.push a h).mem = s.mem := rfl
@[simp] theorem push_V (a : Half) (h : s.SP.val < 16) : (s.push a h).V = s.V := rfl
@[simp] theorem push_I (a : Half) (h : s.SP.val < 16) : (s.push a h).I = s.I := rfl
@[simp] theorem push_pc (a : Half) (h : s.SP.val < 16) : (s.push a h).pc = s.pc := rfl
@[simp] theorem push_stack (a : Half) (h : s.SP.val < 16) : (s.push a h).stack = s.stack.set s.SP.val a h := rfl
@[simp] theorem push_SP (a : Half) (h : s.SP.val < 16) : (s.push a h).SP = ⟨s.SP.val + 1, by omega⟩ := rfl
@[simp] theorem push_DT (a : Half) (h : s.SP.val < 16) : (s.push a h).DT = s.DT := rfl
@[simp] theorem push_ST (a : Half) (h : s.SP.val < 16) : (s.push a h).ST = s.ST := rfl
@[simp] theorem push_disp (a : Half) (h : s.SP.val < 16) : (s.push a h).disp = s.disp := rfl
@[simp] theorem push_drawFlag (a : Half) (h : s.SP.val < 16) : (s.push a h).drawFlag = s.drawFlag := rfl
@[simp] theorem push_key (a : Half) (h : s.SP.val < 16) : (s.push a h).key = s.key := rfl
@[simp] theorem push_status (a : Half) (h : s.SP.val < 16) : (s.push a h).status = s.status := rfl
@[simp] theorem push_params (a : Half) (h : s.SP.val < 16) : (s.push a h).params = s.params := rfl
@[simp] theorem push_draws (a : Half) (h : s.SP.val < 16) : (s.push a h).draws = s.draws := rfl
@[simp] theorem push_unwritten (a : Half) (h : s.SP.val < 16) : (s.push a h).unwritten = s.unwritten := rfl
@[simp] theorem push_stage (a : Half) (h : s.SP.val < 16) : (s.push a h).stage = s.stage := rfl
@[simp] theorem push_reg (a : Half) (h : s.SP.val < 16) (q : Reg) : (s.push a h).reg q = s.reg q := rfl
@[simp] theorem push_byteAt (a : Half) (h : s.SP.val < 16) (c : Nat) : (s.push a h).byteAt c = s.byteAt c := rfl
@[simp] theorem push_pixel (a : Half) (h : s.SP.val < 16) (i : Fin 32) (j : Fin 64) : (s.push a h).pixel i j = s.pixel i j := rfl
@[simp] theorem push_keyDown (a : Half) (h : s.SP.val < 16) (j : Fin 16) : (s.push a h).keyDown? j = s.keyDown? j := rfl
@[simp] theorem push_freeByte (a : Half) (h : s.SP.val < 16) : (s.push a h).freeByte = s.freeByte := rfl
@[simp] theorem push_lacks (a : Half) (h : s.SP.val < 16) (q : RegName) : (s.push a h).lacks q = s.lacks q := rfl

/-! ## pop -/

@[simp] theorem pop_mem : s.pop.mem = s.mem := rfl
@[simp] theorem pop_V : s.pop.V = s.V := rfl
@[simp] theorem pop_I : s.pop.I = s.I := rfl
@[simp] theorem pop_pc : s.pop.pc = s.pc := rfl
@[simp] theorem pop_stack : s.pop.stack = s.stack := rfl
@[simp] theorem pop_DT : s.pop.DT = s.DT := rfl
@[simp] theorem pop_ST : s.pop.ST = s.ST := rfl
@[simp] theorem pop_disp : s.pop.disp = s.disp := rfl
@[simp] theorem pop_drawFlag : s.pop.drawFlag = s.drawFlag := rfl
@[simp] theorem pop_key : s.pop.key = s.key := rfl
@[simp] theorem pop_status : s.pop.status = s.status := rfl
@[simp] theorem pop_params : s.pop.params = s.params := rfl
@[simp] theorem pop_draws : s.pop.draws = s.draws := rfl
@[simp] theorem pop_unwritten : s.pop.unwritten = s.unwritten := rfl
@[simp] theorem pop_stage : s.pop.stage = s.stage := rfl
@[simp] theorem pop_reg (q : Reg) : s.pop.reg q = s.reg q := rfl
@[simp] theorem pop_byteAt (c : Nat) : s.pop.byteAt c = s.byteAt c := rfl
@[simp] theorem pop_pixel (i : Fin 32) (j : Fin 64) : s.pop.pixel i j = s.pixel i j := rfl
@[simp] theorem pop_keyDown (j : Fin 16) : s.pop.keyDown? j = s.keyDown? j := rfl
@[simp] theorem pop_freeByte : s.pop.freeByte = s.freeByte := rfl
@[simp] theorem pop_lacks (q : RegName) : s.pop.lacks q = s.lacks q := rfl

/-! ## redraw -/

@[simp] theorem redraw_mem (d : Display) : (s.redraw d).mem = s.mem := rfl
@[simp] theorem redraw_V (d : Display) : (s.redraw d).V = s.V := rfl
@[simp] theorem redraw_I (d : Display) : (s.redraw d).I = s.I := rfl
@[simp] theorem redraw_pc (d : Display) : (s.redraw d).pc = s.pc := rfl
@[simp] theorem redraw_stack (d : Display) : (s.redraw d).stack = s.stack := rfl
@[simp] theorem redraw_SP (d : Display) : (s.redraw d).SP = s.SP := rfl
@[simp] theorem redraw_DT (d : Display) : (s.redraw d).DT = s.DT := rfl
@[simp] theorem redraw_ST (d : Display) : (s.redraw d).ST = s.ST := rfl
@[simp] theorem redraw_disp (d : Display) : (s.redraw d).disp = d := rfl
@[simp] theorem redraw_drawFlag (d : Display) : (s.redraw d).drawFlag = true := rfl
@[simp] theorem redraw_key (d : Display) : (s.redraw d).key = s.key := rfl
@[simp] theorem redraw_status (d : Display) : (s.redraw d).status = s.status := rfl
@[simp] theorem redraw_params (d : Display) : (s.redraw d).params = s.params := rfl
@[simp] theorem redraw_draws (d : Display) : (s.redraw d).draws = s.draws := rfl
@[simp] theorem redraw_unwritten (d : Display) : (s.redraw d).unwritten = s.unwritten := rfl
@[simp] theorem redraw_stage (d : Display) : (s.redraw d).stage = s.stage := rfl
@[simp] theorem redraw_reg (d : Display) (q : Reg) : (s.redraw d).reg q = s.reg q := rfl
@[simp] theorem redraw_byteAt (d : Display) (c : Nat) : (s.redraw d).byteAt c = s.byteAt c := rfl
@[simp] theorem redraw_keyDown (d : Display) (j : Fin 16) : (s.redraw d).keyDown? j = s.keyDown? j := rfl
@[simp] theorem redraw_freeByte (d : Display) : (s.redraw d).freeByte = s.freeByte := rfl
@[simp] theorem redraw_lacks (d : Display) (q : RegName) : (s.redraw d).lacks q = s.lacks q := rfl

/-! ## drawn -/

@[simp] theorem drawn_mem : s.drawn.mem = s.mem := rfl
@[simp] theorem drawn_V : s.drawn.V = s.V := rfl
@[simp] theorem drawn_I : s.drawn.I = s.I := rfl
@[simp] theorem drawn_pc : s.drawn.pc = s.pc := rfl
@[simp] theorem drawn_stack : s.drawn.stack = s.stack := rfl
@[simp] theorem drawn_SP : s.drawn.SP = s.SP := rfl
@[simp] theorem drawn_DT : s.drawn.DT = s.DT := rfl
@[simp] theorem drawn_ST : s.drawn.ST = s.ST := rfl
@[simp] theorem drawn_disp : s.drawn.disp = s.disp := rfl
@[simp] theorem drawn_drawFlag : s.drawn.drawFlag = s.drawFlag := rfl
@[simp] theorem drawn_key : s.drawn.key = s.key := rfl
@[simp] theorem drawn_status : s.drawn.status = s.status := rfl
@[simp] theorem drawn_params : s.drawn.params = s.params := rfl
@[simp] theorem drawn_draws : s.drawn.draws = s.draws + 1 := rfl
@[simp] theorem drawn_unwritten : s.drawn.unwritten = s.unwritten := rfl
@[simp] theorem drawn_stage : s.drawn.stage = s.stage := rfl
@[simp] theorem drawn_reg (q : Reg) : s.drawn.reg q = s.reg q := rfl
@[simp] theorem drawn_byteAt (c : Nat) : s.drawn.byteAt c = s.byteAt c := rfl
@[simp] theorem drawn_pixel (i : Fin 32) (j : Fin 64) : s.drawn.pixel i j = s.pixel i j := rfl
@[simp] theorem drawn_keyDown (j : Fin 16) : s.drawn.keyDown? j = s.keyDown? j := rfl
@[simp] theorem drawn_lacks (q : RegName) : s.drawn.lacks q = s.lacks q := rfl

/-! ## retire -/

@[simp] theorem retire_mem (p : Half) : (s.retire p).mem = s.mem := rfl
@[simp] theorem retire_V (p : Half) : (s.retire p).V = s.V := rfl
@[simp] theorem retire_I (p : Half) : (s.retire p).I = s.I := rfl
@[simp] theorem retire_pc (p : Half) : (s.retire p).pc = p := rfl
@[simp] theorem retire_stack (p : Half) : (s.retire p).stack = s.stack := rfl
@[simp] theorem retire_SP (p : Half) : (s.retire p).SP = s.SP := rfl
@[simp] theorem retire_DT (p : Half) : (s.retire p).DT = State.tickDown s.DT := rfl
@[simp] theorem retire_ST (p : Half) : (s.retire p).ST = s.ST := rfl
@[simp] theorem retire_disp (p : Half) : (s.retire p).disp = s.disp := rfl
@[simp] theorem retire_drawFlag (p : Half) : (s.retire p).drawFlag = s.drawFlag := rfl
@[simp] theorem retire_key (p : Half) : (s.retire p).key = s.key := rfl
@[simp] theorem retire_status (p : Half) : (s.retire p).status = s.status := rfl
@[simp] theorem retire_params (p : Half) : (s.retire p).params = s.params := rfl
@[simp] theorem retire_draws (p : Half) : (s.retire p).draws = s.draws := rfl
@[simp] theorem retire_unwritten (p : Half) : (s.retire p).unwritten = s.unwritten := rfl
@[simp] theorem retire_stage (p : Half) : (s.retire p).stage = s.stage := rfl
@[simp] theorem retire_reg (p : Half) (q : Reg) : (s.retire p).reg q = s.reg q := rfl
@[simp] theorem retire_byteAt (p : Half) (c : Nat) : (s.retire p).byteAt c = s.byteAt c := rfl
@[simp] theorem retire_pixel (p : Half) (i : Fin 32) (j : Fin 64) : (s.retire p).pixel i j = s.pixel i j := rfl
@[simp] theorem retire_keyDown (p : Half) (j : Fin 16) : (s.retire p).keyDown? j = s.keyDown? j := rfl
@[simp] theorem retire_freeByte (p : Half) : (s.retire p).freeByte = s.freeByte := rfl
@[simp] theorem retire_lacks (p : Half) (q : RegName) : (s.retire p).lacks q = s.lacks q := rfl

/-! ## halt -/

@[simp] theorem halt_mem (f : Fault) : (s.halt f).mem = s.mem := rfl
@[simp] theorem halt_V (f : Fault) : (s.halt f).V = s.V := rfl
@[simp] theorem halt_I (f : Fault) : (s.halt f).I = s.I := rfl
@[simp] theorem halt_pc (f : Fault) : (s.halt f).pc = s.pc := rfl
@[simp] theorem halt_stack (f : Fault) : (s.halt f).stack = s.stack := rfl
@[simp] theorem halt_SP (f : Fault) : (s.halt f).SP = s.SP := rfl
@[simp] theorem halt_DT (f : Fault) : (s.halt f).DT = s.DT := rfl
@[simp] theorem halt_ST (f : Fault) : (s.halt f).ST = s.ST := rfl
@[simp] theorem halt_disp (f : Fault) : (s.halt f).disp = s.disp := rfl
@[simp] theorem halt_drawFlag (f : Fault) : (s.halt f).drawFlag = s.drawFlag := rfl
@[simp] theorem halt_key (f : Fault) : (s.halt f).key = s.key := rfl
@[simp] theorem halt_status (f : Fault) : (s.halt f).status = .halted f := rfl
@[simp] theorem halt_params (f : Fault) : (s.halt f).params = s.params := rfl
@[simp] theorem halt_draws (f : Fault) : (s.halt f).draws = s.draws := rfl
@[simp] theorem halt_unwritten (f : Fault) : (s.halt f).unwritten = s.unwritten := rfl
@[simp] theorem halt_stage (f : Fault) : (s.halt f).stage = s.stage := rfl
@[simp] theorem halt_reg (f : Fault) (q : Reg) : (s.halt f).reg q = s.reg q := rfl
@[simp] theorem halt_byteAt (f : Fault) (c : Nat) : (s.halt f).byteAt c = s.byteAt c := rfl
@[simp] theorem halt_pixel (f : Fault) (i : Fin 32) (j : Fin 64) : (s.halt f).pixel i j = s.pixel i j := rfl
@[simp] theorem halt_keyDown (f : Fault) (j : Fin 16) : (s.halt f).keyDown? j = s.keyDown? j := rfl
@[simp] theorem halt_freeByte (f : Fault) : (s.halt f).freeByte = s.freeByte := rfl
@[simp] theorem halt_lacks (f : Fault) (q : RegName) : (s.halt f).lacks q = s.lacks q := rfl

/-! ## setKey -/

@[simp] theorem setKey_mem (k : Fin 16) (b : Bool) : (s.setKey k b).mem = s.mem := rfl
@[simp] theorem setKey_V (k : Fin 16) (b : Bool) : (s.setKey k b).V = s.V := rfl
@[simp] theorem setKey_I (k : Fin 16) (b : Bool) : (s.setKey k b).I = s.I := rfl
@[simp] theorem setKey_pc (k : Fin 16) (b : Bool) : (s.setKey k b).pc = s.pc := rfl
@[simp] theorem setKey_stack (k : Fin 16) (b : Bool) : (s.setKey k b).stack = s.stack := rfl
@[simp] theorem setKey_SP (k : Fin 16) (b : Bool) : (s.setKey k b).SP = s.SP := rfl
@[simp] theorem setKey_DT (k : Fin 16) (b : Bool) : (s.setKey k b).DT = s.DT := rfl
@[simp] theorem setKey_ST (k : Fin 16) (b : Bool) : (s.setKey k b).ST = s.ST := rfl
@[simp] theorem setKey_disp (k : Fin 16) (b : Bool) : (s.setKey k b).disp = s.disp := rfl
@[simp] theorem setKey_drawFlag (k : Fin 16) (b : Bool) : (s.setKey k b).drawFlag = s.drawFlag := rfl
@[simp] theorem setKey_key (k : Fin 16) (b : Bool) : (s.setKey k b).key = s.key.set k.val b k.isLt := rfl
@[simp] theorem setKey_status (k : Fin 16) (b : Bool) : (s.setKey k b).status = s.status := rfl
@[simp] theorem setKey_params (k : Fin 16) (b : Bool) : (s.setKey k b).params = s.params := rfl
@[simp] theorem setKey_draws (k : Fin 16) (b : Bool) : (s.setKey k b).draws = s.draws := rfl
@[simp] theorem setKey_unwritten (k : Fin 16) (b : Bool) : (s.setKey k b).unwritten = s.unwritten := rfl
@[simp] theorem setKey_stage (k : Fin 16) (b : Bool) : (s.setKey k b).stage = s.stage := rfl
@[simp] theorem setKey_reg (k : Fin 16) (b : Bool) (q : Reg) : (s.setKey k b).reg q = s.reg q := rfl
@[simp] theorem setKey_byteAt (k : Fin 16) (b : Bool) (c : Nat) : (s.setKey k b).byteAt c = s.byteAt c := rfl
@[simp] theorem setKey_pixel (k : Fin 16) (b : Bool) (i : Fin 32) (j : Fin 64) : (s.setKey k b).pixel i j = s.pixel i j := rfl
@[simp] theorem setKey_freeByte (k : Fin 16) (b : Bool) : (s.setKey k b).freeByte = s.freeByte := rfl
@[simp] theorem setKey_lacks (k : Fin 16) (b : Bool) (q : RegName) : (s.setKey k b).lacks q = s.lacks q := rfl

/-! ## clearDrawFlag -/

@[simp] theorem clearDrawFlag_mem : s.clearDrawFlag.mem = s.mem := rfl
@[simp] theorem clearDrawFlag_V : s.clearDrawFlag.V = s.V := rfl
@[simp] theorem clearDrawFlag_I : s.clearDrawFlag.I = s.I := rfl
@[simp] theorem clearDrawFlag_pc : s.clearDrawFlag.pc = s.pc := rfl
@[simp] theorem clearDrawFlag_stack : s.clearDrawFlag.stack = s.stack := rfl
@[simp] theorem clearDrawFlag_SP : s.clearDrawFlag.SP = s.SP := rfl
@[simp] theorem clearDrawFlag_DT : s.clearDrawFlag.DT = s.DT := rfl
@[simp] theorem clearDrawFlag_ST : s.clearDrawFlag.ST = s.ST := rfl
@[simp] theorem clearDrawFlag_disp : s.clearDrawFlag.disp = s.disp := rfl
@[simp] theorem clearDrawFlag_drawFlag : s.clearDrawFlag.drawFlag = false := rfl
@[simp] theorem clearDrawFlag_key : s.clearDrawFlag.key = s.key := rfl
@[simp] theorem clearDrawFlag_status : s.clearDrawFlag.status = s.status := rfl
@[simp] theorem clearDrawFlag_params : s.clearDrawFlag.params = s.params := rfl
@[simp] theorem clearDrawFlag_draws : s.clearDrawFlag.draws = s.draws := rfl
@[simp] theorem clearDrawFlag_unwritten : s.clearDrawFlag.unwritten = s.unwritten := rfl
@[simp] theorem clearDrawFlag_stage : s.clearDrawFlag.stage = s.stage := rfl
@[simp] theorem clearDrawFlag_reg (q : Reg) : s.clearDrawFlag.reg q = s.reg q := rfl
@[simp] theorem clearDrawFlag_byteAt (c : Nat) : s.clearDrawFlag.byteAt c = s.byteAt c := rfl
@[simp] theorem clearDrawFlag_pixel (i : Fin 32) (j : Fin 64) : s.clearDrawFlag.pixel i j = s.pixel i j := rfl
@[simp] theorem clearDrawFlag_keyDown (j : Fin 16) : s.clearDrawFlag.keyDown? j = s.keyDown? j := rfl
@[simp] theorem clearDrawFlag_freeByte : s.clearDrawFlag.freeByte = s.freeByte := rfl
@[simp] theorem clearDrawFlag_lacks (q : RegName) : s.clearDrawFlag.lacks q = s.lacks q := rfl

/-! ## Accessors of what an update changed -/

theorem setReg_reg (r q : Reg) (b : Byte) : (s.setReg r b).reg q = if q = r then b else s.reg q := by
  simp only [reg, setReg, Fin.getElem_fin, Vector.getElem_set, Fin.ext_iff, eq_comm]

@[simp] theorem setReg_reg_self (r : Reg) (b : Byte) : (s.setReg r b).reg r = b := by simp [setReg_reg]

theorem setReg_reg_of_ne {r q : Reg} (b : Byte) (h : q ≠ r) : (s.setReg r b).reg q = s.reg q := by
  simp [setReg_reg, h]

theorem setRegsThrough_reg (x q : Reg) (v : Vector Byte 16) :
    (s.setRegsThrough x v).reg q = if q ≤ x then v[q] else s.reg q := by
  simp [reg, setRegsThrough]

theorem bytesAtI_getElem (q : Reg) : s.bytesAtI[q] = s.byteAt (s.I.toNat + q.val) := by
  simp [bytesAtI, byteAt]

/-- Writing a register gives it a value and no other. -/
theorem setReg_lacks (r : Reg) (b : Byte) (q : RegName) : (s.setReg r b).lacks q = (s.lacks q && decide (q ≠ .V r)) := by
  cases q with
  | V q =>
    by_cases h : q = r
    · simp [lacks, setReg, h]
    · have : r.val ≠ q.val := fun h' => h (Fin.ext h'.symm)
      simp [lacks, setReg, h, this]
  | I => simp [lacks, setReg]
  | DT => simp [lacks, setReg]

/-- Loading V0..Vx gives each of them a value and no other register. -/
theorem setRegsThrough_lacks (x : Reg) (v : Vector Byte 16) (q : RegName) :
    (s.setRegsThrough x v).lacks q = (s.lacks q && decide (∀ j, q = .V j → x < j)) := by
  cases q with
  | V q => by_cases h : q ≤ x <;> simp [lacks, setRegsThrough, h, lt_of_not_ge]
  | I => simp [lacks, setRegsThrough]
  | DT => simp [lacks, setRegsThrough]

theorem setI_lacks (a : Half) (q : RegName) : (s.setI a).lacks q = (s.lacks q && decide (q ≠ .I)) := by
  cases q <;> simp [lacks, setI]

theorem setDT_lacks (b : Byte) (q : RegName) : (s.setDT b).lacks q = (s.lacks q && decide (q ≠ .DT)) := by
  cases q <;> simp [lacks, setDT]

@[simp] theorem storeBytes_byteAt (a : Nat) (bs : List Byte) (c : Nat) :
    (s.storeBytes a bs).byteAt c = (s.mem.writeBytes a bs).read c := rfl

@[simp] theorem pop_SP_val : s.pop.SP.val = s.SP.val - 1 := rfl

@[simp] theorem redraw_pixel (d : Display) (i : Fin 32) (j : Fin 64) : (s.redraw d).pixel i j = d[i][j] := rfl

@[simp] theorem drawn_freeByte : s.drawn.freeByte = Config.freeByte (s.draws + 1) := rfl

theorem setKey_keyDown (k j : Fin 16) (b : Bool) :
    (s.setKey k b).keyDown? j = if j = k then b else s.keyDown? j := by
  simp only [keyDown?, setKey, Fin.getElem_fin, Vector.getElem_set, Fin.ext_iff, eq_comm]

theorem setRegFree_eq (r : Reg) : s.setRegFree r = (s.setReg r (Config.freeByte s.draws)).drawn := rfl

/-- The tick as a number: one lower, 0 staying 0 (R75). -/
theorem tickDown_toNat (d : Byte) : (tickDown d).toNat = d.toNat - 1 := by
  unfold tickDown
  split
  · next h => simp [h]
  · next h =>
    have : d.toNat ≠ 0 := fun h' => h (BitVec.eq_of_toNat_eq (by simpa using h'))
    have := d.isLt
    rw [BitVec.toNat_sub, show (1 : Byte).toNat = 1 from rfl]
    omega

/-- The lowest pressed key is pressed, and every key below it is not (R184). -/
theorem lowestKey_eq_some {k : Fin 16} (h : s.lowestKey = some k) :
    s.keyDown? k = true ∧ ∀ j, j < k → s.keyDown? j = false := by
  obtain ⟨hk, as, bs, hsplit, hall⟩ := List.find?_eq_some_iff_append.mp h
  refine ⟨hk, fun j hj => ?_⟩
  have hsorted : (as ++ k :: bs).Pairwise (· < ·) := hsplit ▸ List.pairwise_lt_finRange 16
  have hmem : j ∈ as ++ k :: bs := hsplit ▸ List.mem_finRange j
  simp only [List.mem_append, List.mem_cons] at hmem
  rcases hmem with hj' | rfl | hj'
  · simpa using hall j hj'
  · exact absurd hj (lt_irrefl _)
  · have := (List.pairwise_cons.mp (List.pairwise_append.mp hsorted).2.1).1 j hj'
    exact absurd hj (not_lt_of_gt this)

/-- No lowest key means no key is pressed. -/
theorem lowestKey_eq_none : s.lowestKey = none ↔ ∀ j, s.keyDown? j = false := by
  simp [lowestKey, List.find?_eq_none]

end Sys2Proof.Machine.State
end

