-- ==== Sys2Proof/Laws/Ops.lean ====
section
/-! SUPPORT. What each shared operation can answer, said once. -/

namespace Sys2Proof.Machine

/-- The end of a step: the new pc, the ticked timer, nothing else. -/
theorem complete_eq (p : Half) (s : State) : complete p s = .next (s.retire p) := rfl

/-- The end of a step whose rule names no pc. -/
theorem advance_eq (s : State) : advance s = .next (s.retire (s.pc + 2)) := rfl

/-- A blocked step. -/
theorem block_eq (s : State) : block s = .next s := rfl

/-- A fault: the status alone changes. -/
theorem raise_eq (f : Fault) (s : State) : raise f s = .next (s.halt f) := rfl

/-- A skip: pc + 4 or pc + 2, nothing else. -/
theorem skipIf_eq (c : Bool) (s : State) : skipIf c s = .next (s.retire (if c then s.pc + 4 else s.pc + 2)) := rfl

theorem rangeOk_iff (base count : Nat) : rangeOk base count = true ↔ count = 0 ∨ base + count ≤ 4096 := by
  simp [rangeOk]

/-- An index-relative access inside memory goes on. -/
theorem withRange_ok {kind : AccessKind} {count : Nat} {s : State} (rest : Answer)
    (h : count = 0 ∨ s.I.toNat + count ≤ 4096) : withRange kind count s rest = rest :=
  if_pos ((rangeOk_iff _ _).mpr h)

/-- An index-relative access that leaves memory faults and changes nothing else. -/
theorem withRange_bad {kind : AccessKind} {count : Nat} {s : State} (rest : Answer) (h₀ : count ≠ 0)
    (h : 4096 < s.I.toNat + count) :
    withRange kind count s rest = .next (s.halt (.memoryOutOfRange kind (max s.I.toNat 4096) s.pc)) :=
  if_neg fun hok => by rcases (rangeOk_iff _ _).mp hok with h' | h' <;> omega

/-- What an index-relative access can answer. -/
theorem withRange_cases (kind : AccessKind) (count : Nat) (s : State) (rest : Answer) :
    withRange kind count s rest = rest ∨
      withRange kind count s rest = .next (s.halt (indexFault kind s)) := by
  unfold withRange
  split
  · exact .inl rfl
  · exact .inr rfl

/-- A key test on one of the sixteen keys. -/
theorem skipIfKey_ok {want : Bool} {v : Byte} (s : State) (h : v.toNat < 16) :
    skipIfKey want v s =
      .next (s.retire (if s.keyDown? ⟨v.toNat, h⟩ == want then s.pc + 4 else s.pc + 2)) :=
  dif_pos h

/-- A key test on a value that names no key. -/
theorem skipIfKey_bad {want : Bool} {v : Byte} (s : State) (h : 15 < v.toNat) :
    skipIfKey want v s = .next (s.halt (.keyIndexOutOfRange v s.pc)) :=
  dif_neg (by omega)

/-- The registers after a flag-setting instruction are the written clauses', or free bytes. -/
theorem resolveAlias_cases (aliased : Bool) (x : Reg) (sequential s : State) :
    resolveAlias aliased x sequential s = sequential ∨
      (s.params.vfAlias = .unspecified ∧ aliased = true ∧
        resolveAlias aliased x sequential s = aliasDraws x s) := by
  unfold resolveAlias
  split
  · exact .inl rfl
  · next h =>
    split
    · next ha => exact .inr ⟨h, ha, rfl⟩
    · exact .inl rfl

/-- With no alias in question, the written clauses hold. -/
theorem resolveAlias_sequential {aliased : Bool} {x : Reg} {sequential s : State}
    (h : s.params.vfAlias = .sequential ∨ aliased = false) : resolveAlias aliased x sequential s = sequential := by
  rcases resolveAlias_cases aliased x sequential s with h' | ⟨hu, ha, -⟩
  · exact h'
  · rcases h with h | h <;> simp_all

/-- What an instruction reads does not depend on the record of steps and loads. -/
theorem unwrittenRead_stepped (i : Instr) (s : State) : unwrittenRead i s.stepped = unwrittenRead i s := rfl

/-- A read that faults is of a register the instruction reads and that holds no value. -/
theorem unwrittenRead_some {i : Instr} {s : State} {r : RegName} (h : unwrittenRead i s = some r) :
    r ∈ registersRead i s ∧ s.lacks r = true :=
  ⟨List.mem_of_find?_eq_some h, List.find?_some h⟩

/-- Where every register the instruction reads holds a value, no read faults. -/
theorem unwrittenRead_none {i : Instr} {s : State} :
    unwrittenRead i s = none ↔ ∀ r ∈ registersRead i s, s.lacks r = false := by
  simp [unwrittenRead, List.find?_eq_none]

/-- One set sprite bit: the pixel at its place flips, every other pixel stays. -/
theorem drawPixel_disp (r : Fin 32) (c : Fin 64) (d : Drawing) (i : Fin 32) (j : Fin 64) :
    (drawPixel r c d).disp[i][j] = if i = r ∧ j = c then !d.disp[i][j] else d.disp[i][j] := by
  by_cases hi : i = r
  · subst hi
    by_cases hj : j = c
    · subst hj; simp [drawPixel]
    · have : c.val ≠ j.val := fun h => hj (Fin.ext h.symm)
      simp [drawPixel, this, hj]
  · have : r.val ≠ i.val := fun h => hi (Fin.ext h.symm)
    simp [drawPixel, this, hi]

/-- A collision is a set bit on a set pixel. -/
theorem drawPixel_collision (r : Fin 32) (c : Fin 64) (d : Drawing) :
    (drawPixel r c d).collision = (d.collision || d.disp[r][c]) := rfl

end Sys2Proof.Machine
end

