-- ==== Sys2Proof/Laws/Display.lean ====
section
/-! SUPPORT. What drawing a sprite does, said once: which pixels flip and when there is a collision (R161, R163). -/

namespace Sys2Proof.Machine

/-- The bits of sprite row `b` at offsets `js` that fall on row `r`, column `c`. -/
def RowSets (order : SpriteBitOrder) (x0 y0 i : Nat) (b : Byte) (js : List Nat) (r : Fin 32) (c : Fin 64) : Prop :=
  (y0 + i) % 32 = r.val ∧ ∃ j ∈ js, (x0 + j) % 64 = c.val ∧ spriteBit order b j = true

/-- One sprite bit: the pixel it falls on flips. -/
theorem drawBit_disp (order : SpriteBitOrder) (x0 y0 i : Nat) (b : Byte) (d : Drawing) (j : Nat) (r : Fin 32)
    (c : Fin 64) :
    (drawBit order x0 y0 i b d j).disp[r][c] =
      if (y0 + i) % 32 = r.val ∧ (x0 + j) % 64 = c.val ∧ spriteBit order b j = true then !d.disp[r][c]
      else d.disp[r][c] := by
  cases hb : spriteBit order b j with
  | false => simp [drawBit, hb]
  | true => simp only [drawBit, hb, if_true, drawPixel_disp, Fin.ext_iff, and_true, eq_comm]

/-- One sprite bit: it collides on a pixel that is 1. -/
theorem drawBit_collision (order : SpriteBitOrder) (x0 y0 i : Nat) (b : Byte) (d : Drawing) (j : Nat) :
    (drawBit order x0 y0 i b d j).collision = true ↔
      d.collision = true ∨ ∃ (r : Fin 32) (c : Fin 64), (y0 + i) % 32 = r.val ∧ (x0 + j) % 64 = c.val ∧ spriteBit order b j = true ∧
        d.disp[r][c] = true := by
  cases hb : spriteBit order b j with
  | false => simp [drawBit, hb]
  | true =>
    simp only [drawBit, hb, if_true, drawPixel_collision, Bool.or_eq_true, true_and]
    constructor
    · rintro (h | h)
      · exact .inl h
      · exact .inr ⟨_, _, rfl, rfl, h⟩
    · rintro (h | ⟨r, c, hr, hc, h⟩)
      · exact .inl h
      · refine .inr ?_
        have e1 : (⟨(y0 + i) % 32, Nat.mod_lt _ (by decide)⟩ : Fin 32) = r := Fin.ext hr
        have e2 : (⟨(x0 + j) % 64, Nat.mod_lt _ (by decide)⟩ : Fin 64) = c := Fin.ext hc
        rw [e1, e2]; exact h

/-- The bits of one sprite row, no two of them on one pixel. -/
theorem fold_drawBit (order : SpriteBitOrder) (x0 y0 i : Nat) (b : Byte) (js : List Nat) (d : Drawing)
    (hlt : ∀ j ∈ js, j < 8) (hnd : js.Nodup) :
    (∀ r c, (RowSets order x0 y0 i b js r c → (js.foldl (drawBit order x0 y0 i b) d).disp[r][c] = !d.disp[r][c]) ∧
      (¬ RowSets order x0 y0 i b js r c → (js.foldl (drawBit order x0 y0 i b) d).disp[r][c] = d.disp[r][c])) ∧
    ((js.foldl (drawBit order x0 y0 i b) d).collision = true ↔
      d.collision = true ∨ ∃ r c, RowSets order x0 y0 i b js r c ∧ d.disp[r][c] = true) := by
  induction js generalizing d with
  | nil => simp [RowSets]
  | cons j js ih =>
    obtain ⟨hj, hnd'⟩ := List.nodup_cons.mp hnd
    obtain ⟨ihd, ihc⟩ := ih (drawBit order x0 y0 i b d j) (fun k hk => hlt k (List.mem_cons_of_mem _ hk)) hnd'
    have hj8 := hlt j (by simp)
    have hsep : ∀ r c, RowSets order x0 y0 i b js r c → ¬ ((x0 + j) % 64 = c.val) := by
      rintro r c ⟨-, k, hk, hc, -⟩ hc'
      have hk8 := hlt k (List.mem_cons_of_mem _ hk)
      have : k = j := by omega
      exact hj (this ▸ hk)
    have hcons : ∀ r c, RowSets order x0 y0 i b (j :: js) r c ↔
        ((y0 + i) % 32 = r.val ∧ (x0 + j) % 64 = c.val ∧ spriteBit order b j = true) ∨
          RowSets order x0 y0 i b js r c := by
      intro r c; simp only [RowSets, List.mem_cons]; constructor
      · rintro ⟨hr, k, rfl | hk, hc, hb⟩
        · exact .inl ⟨hr, hc, hb⟩
        · exact .inr ⟨hr, k, hk, hc, hb⟩
      · rintro (⟨hr, hc, hb⟩ | ⟨hr, k, hk, hc, hb⟩)
        · exact ⟨hr, j, .inl rfl, hc, hb⟩
        · exact ⟨hr, k, .inr hk, hc, hb⟩
    simp only [List.foldl_cons]
    refine ⟨fun r c => ⟨fun h => ?_, fun h => ?_⟩, ?_⟩
    · rcases (hcons r c).mp h with h | h
      · have hn : ¬ RowSets order x0 y0 i b js r c := fun h' => hsep r c h' h.2.1
        rw [(ihd r c).2 hn, drawBit_disp, if_pos h]
      · rw [(ihd r c).1 h, drawBit_disp, if_neg fun h' => hsep r c h h'.2.1]
    · rw [hcons, not_or] at h
      rw [(ihd r c).2 h.2, drawBit_disp, if_neg h.1]
    · rw [ihc, drawBit_collision, or_assoc]
      refine or_congr_right ⟨?_, ?_⟩
      · rintro (⟨r, c, hr, hc, hb, hd⟩ | ⟨r, c, h, hd⟩)
        · exact ⟨r, c, (hcons r c).mpr (.inl ⟨hr, hc, hb⟩), hd⟩
        · rw [drawBit_disp, if_neg fun h' => hsep r c h h'.2.1] at hd
          exact ⟨r, c, (hcons r c).mpr (.inr h), hd⟩
      · rintro ⟨r, c, h, hd⟩
        rcases (hcons r c).mp h with ⟨hr, hc, hb⟩ | h
        · exact .inl ⟨r, c, hr, hc, hb, hd⟩
        · refine .inr ⟨r, c, h, ?_⟩
          rw [drawBit_disp, if_neg fun h' => hsep r c h h'.2.1]; exact hd

/-- The bits of the sprite rows `bs`, the first at row offset `i`, that fall on row `r`, column `c` (R161). -/
def SpriteSets (order : SpriteBitOrder) (x0 y0 i : Nat) (bs : List Byte) (r : Fin 32) (c : Fin 64) : Prop :=
  ∃ k b, bs[k]? = some b ∧ RowSets order x0 y0 (i + k) b (List.range 8) r c

/-- The rows of a sprite, no two of them on one display row. -/
theorem drawRows_spec (order : SpriteBitOrder) (x0 y0 i : Nat) (bs : List Byte) (d : Drawing)
    (h : bs.length ≤ 32) :
    (∀ r c, (SpriteSets order x0 y0 i bs r c → (drawRows order x0 y0 i bs d).disp[r][c] = !d.disp[r][c]) ∧
      (¬ SpriteSets order x0 y0 i bs r c → (drawRows order x0 y0 i bs d).disp[r][c] = d.disp[r][c])) ∧
    ((drawRows order x0 y0 i bs d).collision = true ↔
      d.collision = true ∨ ∃ r c, SpriteSets order x0 y0 i bs r c ∧ d.disp[r][c] = true) := by
  induction bs generalizing i d with
  | nil => simp [SpriteSets, drawRows]
  | cons b bs ih =>
    simp only [List.length_cons] at h
    obtain ⟨rowd, rowc⟩ := fold_drawBit order x0 y0 i b (List.range 8) d (by simp) List.nodup_range
    obtain ⟨ihd, ihc⟩ := ih (i + 1) (drawRow order x0 y0 i b d) (by omega)
    have hrow : ∀ r c, SpriteSets order x0 y0 (i + 1) bs r c → ¬ RowSets order x0 y0 i b (List.range 8) r c := by
      rintro r c ⟨k, b', hk, hr, -⟩ ⟨hr', -⟩
      have : k < bs.length := (List.getElem?_eq_some_iff.mp hk).1
      omega
    have hcons : ∀ r c, SpriteSets order x0 y0 i (b :: bs) r c ↔
        RowSets order x0 y0 i b (List.range 8) r c ∨ SpriteSets order x0 y0 (i + 1) bs r c := by
      intro r c; constructor
      · rintro ⟨k, b', hk, hs⟩
        cases k with
        | zero => simp at hk; subst hk; exact .inl hs
        | succ k => exact .inr ⟨k, b', by simpa using hk, by rwa [show i + 1 + k = i + (k + 1) by omega]⟩
      · rintro (hs | ⟨k, b', hk, hs⟩)
        · exact ⟨0, b, rfl, hs⟩
        · exact ⟨k + 1, b', by simpa using hk, by rwa [show i + (k + 1) = i + 1 + k by omega]⟩
    simp only [drawRows]
    refine ⟨fun r c => ⟨fun hs => ?_, fun hs => ?_⟩, ?_⟩
    · rcases (hcons r c).mp hs with hs | hs
      · rw [(ihd r c).2 fun h' => hrow r c h' hs]; exact (rowd r c).1 hs
      · rw [(ihd r c).1 hs]; exact congrArg _ ((rowd r c).2 (hrow r c hs))
    · rw [hcons, not_or] at hs
      rw [(ihd r c).2 hs.2]; exact (rowd r c).2 hs.1
    · rw [ihc, drawRow, rowc, or_assoc]
      refine or_congr_right ⟨?_, ?_⟩
      · rintro (⟨r, c, hs, hd⟩ | ⟨r, c, hs, hd⟩)
        · exact ⟨r, c, (hcons r c).mpr (.inl hs), hd⟩
        · rw [(rowd r c).2 (hrow r c hs)] at hd
          exact ⟨r, c, (hcons r c).mpr (.inr hs), hd⟩
      · rintro ⟨r, c, hs, hd⟩
        rcases (hcons r c).mp hs with hs | hs
        · exact .inl ⟨r, c, hs, hd⟩
        · exact .inr ⟨r, c, hs, by rw [(rowd r c).2 (hrow r c hs)]; exact hd⟩

/-- A drawn sprite flips exactly the pixels it sets, and collides if one of them was 1. -/
theorem drawSprite_spec (order : SpriteBitOrder) (x0 y0 : Nat) (sprite : List Byte) (disp : Display)
    (h : sprite.length ≤ 32) :
    (∀ r c, (SpriteSets order x0 y0 0 sprite r c → (drawSprite order x0 y0 sprite disp).disp[r][c] = !disp[r][c]) ∧
      (¬ SpriteSets order x0 y0 0 sprite r c → (drawSprite order x0 y0 sprite disp).disp[r][c] = disp[r][c])) ∧
    ((drawSprite order x0 y0 sprite disp).collision = true ↔
      ∃ r c, SpriteSets order x0 y0 0 sprite r c ∧ disp[r][c] = true) := by
  obtain ⟨hd, hc⟩ := drawRows_spec order x0 y0 0 sprite ⟨disp, false⟩ h
  refine ⟨hd, hc.trans ?_⟩
  simp

end Sys2Proof.Machine
end

