-- ==== Sys2Proof/Laws/Memory.lean ====
section
/-! SUPPORT. Memory: what a read gives after a write, and that every operation keeps the canonical form. -/

namespace Sys2Proof.Machine.Memory

/-! ## Reads -/

theorem read_nil (a : Nat) : read [] a = background a := rfl

theorem read_cons (c : Host.Cell) (m : Memory) (a : Nat) :
    read (c :: m) a = if a = c.1 then c.2 else read m a := by
  obtain ⟨a', b'⟩ := c
  by_cases h : a = a'
  · simp [read, h]
  · simp [read, List.lookup_cons, h, beq_false_of_ne h]

theorem read_erase (m : Memory) (a c : Nat) : (m.erase a).read c = if c = a then background c else m.read c := by
  induction m with
  | nil => simp [erase, read_nil]
  | cons d m ih =>
    unfold erase at ih ⊢
    rw [List.filter_cons]
    split
    · next h =>
      rw [read_cons, read_cons, ih]
      have hd : d.1 ≠ a := by simpa using h
      split <;> rename_i hc <;> simp [hc, hd]
    · next h =>
      have hd : d.1 = a := by simpa using h
      rw [ih, read_cons, hd]
      split <;> simp [*]

theorem read_insertCell (m : Memory) (a c : Nat) (b : Byte) :
    (insertCell a b (m.erase a)).read c = if c = a then b else m.read c := by
  have aux : ∀ m : Memory, (∀ d ∈ m, d.1 ≠ a) →
      (insertCell a b m).read c = if c = a then b else m.read c := by
    intro m
    induction m with
    | nil => intro _; simp [insertCell, read_cons, read_nil]
    | cons d m ih =>
      intro h
      have hd : d.1 ≠ a := h d (by simp)
      unfold insertCell
      split
      · simp [read_cons]
      · rw [read_cons, ih fun e he => h e (by simp [he]), read_cons]
        by_cases hc : c = a
        · subst hc; simp [hd.symm]
        · simp [hc]
  rw [aux _ (by simp [erase])]
  split
  · rfl
  · next hc => rw [read_erase]; simp [hc]

/-- A byte read after one byte was written: the new byte at its cell, every other cell as before (R53, R60). -/
theorem read_write (m : Memory) {a : Nat} (b : Byte) (h : a < 4096) (c : Nat) :
    (m.write a b).read c = if c = a then b else m.read c := by
  unfold write
  rw [if_pos h]
  split
  · next hb =>
    rw [read_erase]
    split
    · next hc => rw [hb, hc]
    · rfl
  · exact read_insertCell m a c b

/-- Behind the font an unlisted address reads as zero (R38). -/
theorem background_eq_zero {a : Nat} (h : 0x50 ≤ a) : background a = 0 := by
  unfold background
  rw [List.getElem?_eq_none (by simpa [fontImage] using h)]
  rfl

/-! ## The canonical form -/

theorem wfFrom_cons (lo : Nat) (c : Host.Cell) (m : Memory) :
    wfFrom lo (c :: m) = true ↔
      lo ≤ c.1 ∧ c.1 < 4096 ∧ c.2 ≠ background c.1 ∧ wfFrom (c.1 + 1) m = true := by
  simp [wfFrom, and_assoc]

theorem wfFrom_mono {lo lo' : Nat} {m : Memory} (hle : lo' ≤ lo) (h : wfFrom lo m = true) :
    wfFrom lo' m = true := by
  cases m with
  | nil => rfl
  | cons c m =>
    rw [wfFrom_cons] at h ⊢
    exact ⟨le_trans hle h.1, h.2⟩

/-- Every cell of a canonical list is at or above its lower bound and below 4096. -/
theorem wfFrom_mem {lo : Nat} {m : Memory} (h : wfFrom lo m = true) {c : Host.Cell} (hc : c ∈ m) :
    lo ≤ c.1 ∧ c.1 < 4096 := by
  induction m generalizing lo with
  | nil => cases hc
  | cons d m ih =>
    rw [wfFrom_cons] at h
    rcases List.mem_cons.mp hc with rfl | hc
    · exact ⟨h.1, h.2.1⟩
    · have := ih h.2.2.2 hc
      exact ⟨by omega, this.2⟩

theorem wfFrom_erase {lo : Nat} {m : Memory} (a : Nat) (h : wfFrom lo m = true) :
    wfFrom lo (m.erase a) = true := by
  induction m generalizing lo with
  | nil => rfl
  | cons d m ih =>
    rw [wfFrom_cons] at h
    unfold erase at ih ⊢
    rw [List.filter_cons]
    split
    · exact (wfFrom_cons _ _ _).mpr ⟨h.1, h.2.1, h.2.2.1, ih h.2.2.2⟩
    · exact wfFrom_mono (by omega) (ih h.2.2.2)

theorem wfFrom_insertCell {lo : Nat} {m : Memory} {a : Nat} {b : Byte} (hlo : lo ≤ a) (ha : a < 4096)
    (hb : b ≠ background a) (hne : ∀ d ∈ m, d.1 ≠ a) (h : wfFrom lo m = true) :
    wfFrom lo (insertCell a b m) = true := by
  induction m generalizing lo with
  | nil => simp [insertCell, wfFrom, hlo, ha, hb]
  | cons d m ih =>
    have hd : d.1 ≠ a := hne d (by simp)
    rw [wfFrom_cons] at h
    unfold insertCell
    split
    · next hlt =>
      exact (wfFrom_cons _ _ _).mpr ⟨hlo, ha, hb, (wfFrom_cons _ _ _).mpr ⟨by omega, h.2⟩⟩
    · exact (wfFrom_cons _ _ _).mpr ⟨h.1, h.2.1, h.2.2.1,
        ih (by omega) (fun e he => hne e (by simp [he])) h.2.2.2⟩

/-- A byte write keeps the canonical form. -/
theorem wf_write {m : Memory} (a : Nat) (b : Byte) (h : m.wf = true) : (m.write a b).wf = true := by
  unfold write
  split
  · next ha =>
    split
    · exact wfFrom_erase a h
    · next hb => exact wfFrom_insertCell (by omega) ha hb (by simp [erase]) (wfFrom_erase a h)
  · exact h

/-- Writing bytes keeps the canonical form. -/
theorem wf_writeBytes {m : Memory} (a : Nat) (bs : List Byte) (h : m.wf = true) :
    (m.writeBytes a bs).wf = true := by
  induction bs generalizing m a with
  | nil => exact h
  | cons b bs ih => exact ih (a + 1) (wf_write a b h)

/-- The memory of the reset state lists nothing, which is canonical. -/
theorem wf_nil : wf [] = true := rfl

/-- A byte read after bytes were written inside memory: the byte of the list at that place, or the old byte. -/
theorem read_writeBytes (m : Memory) (a : Nat) (bs : List Byte) (h : a + bs.length ≤ 4096) (c : Nat) :
    (m.writeBytes a bs).read c = if a ≤ c ∧ c < a + bs.length then (bs[c - a]?).getD 0 else m.read c := by
  induction bs generalizing m a with
  | nil => simp [writeBytes]
  | cons b bs ih =>
    simp only [List.length_cons] at h ⊢
    rw [writeBytes, ih (m.write a b) (a + 1) (by omega), read_write m b (by omega)]
    rcases Nat.lt_trichotomy c a with hc | rfl | hc
    · rw [if_neg (by omega), if_neg (by omega), if_neg (by omega)]
    · rw [if_neg (by omega), if_pos rfl, if_pos (by omega)]; simp
    · obtain ⟨j, rfl⟩ : ∃ j, c = a + 1 + j := ⟨c - a - 1, by omega⟩
      by_cases hj : j < bs.length
      · rw [if_pos (by omega), if_pos (by omega)]
        rw [show a + 1 + j - (a + 1) = j by omega, show a + 1 + j - a = j + 1 by omega]; simp
      · rw [if_neg (by omega), if_neg (by omega), if_neg (by omega)]

end Sys2Proof.Machine.Memory
end

