-- ==== Sys2Proof/Laws/PerInstr.lean ====
section
/-! SUPPORT. Facts about every instruction as syntax, one lemma per constructor. -/

namespace Sys2Proof.Laws

theorem nibble_and_ones (a : BitVec 4) : a &&& 15#4 = a := by revert a; decide

theorem byte_and_ones (b : Byte) : b &&& 255#8 = b := by revert b; decide

theorem wordA_matches (a : BitVec 4) (nnn : BitVec 12) : wordA a nnn &&& 0xF000 = a ++ (0 : BitVec 12) := by
  unfold wordA
  rw [show (0xF000 : Half) = (0xF#4 ++ 0#12 : BitVec 16) from rfl, BitVec.and_append]
  congr 1 <;> simp [nibble_and_ones]

theorem wordXK_matches_group (a : BitVec 4) (x : Reg) (kk : Byte) :
    wordXK a x kk &&& 0xF000 = a ++ (0 : BitVec 12) := by
  unfold wordXK
  rw [show (0xF000 : Half) = (0xF#4 ++ 0#4 ++ 0#8 : BitVec 16) from rfl, BitVec.and_append, BitVec.and_append]
  rw [show (a ++ (0 : BitVec 12) : BitVec 16) = a ++ 0#4 ++ 0#8 by
    revert a; decide]
  congr 2 <;> simp [nibble_and_ones]

theorem wordXK_matches_low (a : BitVec 4) (x : Reg) (kk : Byte) :
    wordXK a x kk &&& 0xF0FF = a ++ (0 : BitVec 4) ++ kk := by
  unfold wordXK
  rw [show (0xF0FF : Half) = (0xF#4 ++ 0#4 ++ 0xFF#8 : BitVec 16) from rfl, BitVec.and_append, BitVec.and_append]
  congr 2 <;> simp [nibble_and_ones, byte_and_ones]

theorem wordXYN_matches_group (a : BitVec 4) (x y : Reg) (n : BitVec 4) :
    wordXYN a x y n &&& 0xF000 = a ++ (0 : BitVec 12) := by
  unfold wordXYN
  rw [show (0xF000 : Half) = (0xF#4 ++ 0#4 ++ 0#4 ++ 0#4 : BitVec 16) from rfl, BitVec.and_append, BitVec.and_append,
    BitVec.and_append]
  rw [show (a ++ (0 : BitVec 12) : BitVec 16) = a ++ 0#4 ++ 0#4 ++ 0#4 by revert a; decide]
  congr 3 <;> simp [nibble_and_ones]

theorem wordXYN_matches_low (a : BitVec 4) (x y : Reg) (n : BitVec 4) :
    wordXYN a x y n &&& 0xF00F = a ++ (0 : BitVec 8) ++ n := by
  unfold wordXYN
  rw [show (0xF00F : Half) = (0xF#4 ++ 0#4 ++ 0#4 ++ 0xF#4 : BitVec 16) from rfl, BitVec.and_append, BitVec.and_append,
    BitVec.and_append]
  rw [show (a ++ (0 : BitVec 8) : BitVec 12) = a ++ 0#4 ++ 0#4 by revert a; decide]
  congr 3 <;> simp [nibble_and_ones]

namespace EncodingMatchesItsRow

/-- The word the encoder gives an instruction is a word of the instruction's row of R82. -/
def Statement (i : Instr) : Prop := i.row.Matches (encode i)

theorem cls : Statement .cls := (wordXK_matches_low 0x0 0 0xE0).trans rfl

theorem ret : Statement .ret := (wordXK_matches_low 0x0 0 0xEE).trans rfl

theorem jp (nnn : BitVec 12) : Statement (.jp nnn) := (wordA_matches 0x1 nnn).trans rfl

theorem call (nnn : BitVec 12) : Statement (.call nnn) := (wordA_matches 0x2 nnn).trans rfl

theorem seByte (x : Reg) (kk : Byte) : Statement (.seByte x kk) := (wordXK_matches_group 0x3 x kk).trans rfl

theorem sneByte (x : Reg) (kk : Byte) : Statement (.sneByte x kk) := (wordXK_matches_group 0x4 x kk).trans rfl

theorem seReg (x y : Reg) : Statement (.seReg x y) := (wordXYN_matches_group 0x5 x y 0x0).trans rfl

theorem ldByte (x : Reg) (kk : Byte) : Statement (.ldByte x kk) := (wordXK_matches_group 0x6 x kk).trans rfl

theorem addByte (x : Reg) (kk : Byte) : Statement (.addByte x kk) := (wordXK_matches_group 0x7 x kk).trans rfl

theorem ldReg (x y : Reg) : Statement (.ldReg x y) := (wordXYN_matches_low 0x8 x y 0x0).trans rfl

theorem orReg (x y : Reg) : Statement (.orReg x y) := (wordXYN_matches_low 0x8 x y 0x1).trans rfl

theorem andReg (x y : Reg) : Statement (.andReg x y) := (wordXYN_matches_low 0x8 x y 0x2).trans rfl

theorem xorReg (x y : Reg) : Statement (.xorReg x y) := (wordXYN_matches_low 0x8 x y 0x3).trans rfl

theorem addReg (x y : Reg) : Statement (.addReg x y) := (wordXYN_matches_low 0x8 x y 0x4).trans rfl

theorem sub (x y : Reg) : Statement (.sub x y) := (wordXYN_matches_low 0x8 x y 0x5).trans rfl

theorem shr (x y : Reg) : Statement (.shr x y) := (wordXYN_matches_low 0x8 x y 0x6).trans rfl

theorem subn (x y : Reg) : Statement (.subn x y) := (wordXYN_matches_low 0x8 x y 0x7).trans rfl

theorem shl (x y : Reg) : Statement (.shl x y) := (wordXYN_matches_low 0x8 x y 0xE).trans rfl

theorem sneReg (x y : Reg) : Statement (.sneReg x y) := (wordXYN_matches_group 0x9 x y 0x0).trans rfl

theorem ldI (nnn : BitVec 12) : Statement (.ldI nnn) := (wordA_matches 0xA nnn).trans rfl

theorem jpV0 (nnn : BitVec 12) : Statement (.jpV0 nnn) := (wordA_matches 0xB nnn).trans rfl

theorem rnd (x : Reg) (kk : Byte) : Statement (.rnd x kk) := (wordXK_matches_group 0xC x kk).trans rfl

theorem drw (x y : Reg) (n : Nat) : Statement (.drw x y n) := (wordXYN_matches_group 0xD x y (BitVec.ofNat 4 n)).trans rfl

theorem skp (x : Reg) : Statement (.skp x) := (wordXK_matches_low 0xE x 0x9E).trans rfl

theorem sknp (x : Reg) : Statement (.sknp x) := (wordXK_matches_low 0xE x 0xA1).trans rfl

theorem ldVxDT (x : Reg) : Statement (.ldVxDT x) := (wordXK_matches_low 0xF x 0x07).trans rfl

theorem ldVxK (x : Reg) : Statement (.ldVxK x) := (wordXK_matches_low 0xF x 0x0A).trans rfl

theorem ldDT (x : Reg) : Statement (.ldDT x) := (wordXK_matches_low 0xF x 0x15).trans rfl

theorem ldST (x : Reg) : Statement (.ldST x) := (wordXK_matches_low 0xF x 0x18).trans rfl

theorem addI (x : Reg) : Statement (.addI x) := (wordXK_matches_low 0xF x 0x1E).trans rfl

theorem ldF (x : Reg) : Statement (.ldF x) := (wordXK_matches_low 0xF x 0x29).trans rfl

theorem ldB (x : Reg) : Statement (.ldB x) := (wordXK_matches_low 0xF x 0x33).trans rfl

theorem storeRegs (x : Reg) : Statement (.storeRegs x) := (wordXK_matches_low 0xF x 0x55).trans rfl

theorem loadRegs (x : Reg) : Statement (.loadRegs x) := (wordXK_matches_low 0xF x 0x65).trans rfl

end EncodingMatchesItsRow

end Sys2Proof.Laws
end

