-- ==== Sys2Proof/Laws/Step.lean ====
section
/-! SUPPORT. What a step can do, said once. -/

namespace Sys2Proof.Machine

/-- An instruction that finds a value in every register it reads is run (R70). -/
theorem runWord_insn {execute : Instr → State → Answer} {w : Half} {i : Instr} {s : State}
    (hd : decodeWord w = .insn i) (hr : unwrittenRead i s = none) : runWord execute w s = execute i s := by
  simp [runWord, hd, hr]

/-- One that reads a register without a value faults (R38, `RESET_REGS = Unwritten`). -/
theorem runWord_unwritten {execute : Instr → State → Answer} {w : Half} {i : Instr} {s : State} {r : RegName}
    (hd : decodeWord w = .insn i) (hr : unwrittenRead i s = some r) :
    runWord execute w s = .next (s.halt (.unwrittenRead r s.pc)) := by
  simp [runWord, hd, hr, raise_eq]

/-- A halted core's step has no effect (R71). -/
theorem step_halted {s : State} {f : Fault} (h : s.status = .halted f) : step s = .next s := by
  simp [step, cycle, h]

/-- A running core whose fetch leaves memory (R72). -/
theorem step_fetch_fault {s : State} (h : s.status = .running) (hp : 4095 < s.pc.toNat + 1) :
    step s = .next (s.stepped.halt (.memoryOutOfRange .fetch (max s.pc.toNat 4096) s.pc)) := by
  simp [step, cycle, h, fetchFault, hp, raise_eq]

/-- A running core whose fetch is inside memory runs the word it fetched (R70). -/
theorem step_fetched {s : State} (h : s.status = .running) (hp : s.pc.toNat + 1 ≤ 4095) :
    step s = runWord exec (fetchWord s) s.stepped := by
  simp [step, cycle, h, fetchFault, Nat.not_lt.mpr hp]

/-- Everything a step can be: nothing on a halted core, a fetch fault, an instruction, a read of a register
without a value, a stall, or an invalid-word halt. -/
theorem step_cases (s : State) :
    ((∃ f, s.status = .halted f) ∧ step s = .next s) ∨
    (s.status = .running ∧ 4095 < s.pc.toNat + 1 ∧
      step s = .next (s.stepped.halt (.memoryOutOfRange .fetch (max s.pc.toNat 4096) s.pc))) ∨
    (s.status = .running ∧ s.pc.toNat + 1 ≤ 4095 ∧
      ((∃ i, decodeWord (fetchWord s) = .insn i ∧ unwrittenRead i s = none ∧ step s = exec i s.stepped) ∨
       (∃ i r, decodeWord (fetchWord s) = .insn i ∧ unwrittenRead i s = some r ∧
         step s = .next (s.stepped.halt (.unwrittenRead r s.pc))) ∨
       (decodeWord (fetchWord s) = .softInvalid ∧ s.params.invalidPolicy = .original ∧
         step s = .next (s.stepped.retire s.pc)) ∨
       ((decodeWord (fetchWord s) = .softInvalid ∧ s.params.invalidPolicy = .unified ∨
          decodeWord (fetchWord s) = .fatalInvalid) ∧
         step s = .next (s.stepped.halt (.invalidOpcode (fetchWord s) s.pc))))) := by
  cases hs : s.status with
  | halted f => exact .inl ⟨⟨f, rfl⟩, step_halted hs⟩
  | running =>
    rcases Nat.lt_or_ge 4095 (s.pc.toNat + 1) with hp | hp
    · exact .inr (.inl ⟨rfl, hp, step_fetch_fault hs hp⟩)
    · refine .inr (.inr ⟨rfl, hp, ?_⟩)
      rw [step_fetched hs hp]
      cases hd : decodeWord (fetchWord s) with
      | insn i =>
        cases hr : unwrittenRead i s with
        | none => exact .inl ⟨i, rfl, hr, runWord_insn hd ((unwrittenRead_stepped i s).trans hr)⟩
        | some r => exact .inr (.inl ⟨i, r, rfl, hr, runWord_unwritten hd ((unwrittenRead_stepped i s).trans hr)⟩)
      | softInvalid =>
        cases hpol : s.params.invalidPolicy with
        | original =>
          exact .inr (.inr (.inl ⟨rfl, rfl, by simp [runWord, hd, softInvalidAction, hpol, complete_eq]⟩))
        | unified =>
          exact .inr (.inr (.inr ⟨.inl ⟨rfl, rfl⟩, by simp [runWord, hd, softInvalidAction, hpol, raise_eq]⟩))
      | fatalInvalid =>
        exact .inr (.inr (.inr ⟨.inr rfl, by simp [runWord, hd, fatalInvalidAction, raise_eq]⟩))

end Sys2Proof.Machine
end

