-- ==== Sys2Proof/Tests/Slice0.lean ====
section
/-! SUPPORT. Tests and witnesses. Expected values come from spec/95_test_vectors.md (the vector's number stands in the
docstring) or from the rule cited, worked by hand. Each test is one step, or one host call. A theorem `witness_<Name>`
shows data that meet the hypotheses of `Obligations.<Name>`, its clauses at their boundaries. -/

namespace Sys2Proof.Tests

open Machine

/-! ## Helpers -/

/-- The state at creation. -/
def start : State := State.reset

/-- One step on the word `w`, put where the step fetches. -/
def run (w : Nat) (s : State) : Answer := step (s.withFetchWord 16 w)

/-- A view of the state an answer leaves. -/
def view {α : Type} (f : State → α) (o : Answer) : Option α :=
  match o with
  | .next t => some (f t)
  | .fault _ => none
  | .refused _ => none

/-- A view of what a host call answers. -/
def hostView {α : Type} (f : HostReply → State → α) (o : HostAnswer) : Option α :=
  match o with
  | .next (r, t) => some (f r t)
  | .fault _ => none
  | .refused _ => none

/-- The refusal a host call answers, if it does. -/
def hostRefusal (o : HostAnswer) : Option Refusal :=
  match o with
  | .next _ => none
  | .fault _ => none
  | .refused r => some r

/-- Two registers set. -/
def pair (a b : Byte) : State := (start.setReg 0 a).setReg 1 b

/-- V0, VF after a step. -/
def v0f (t : State) : Byte × Byte := (t.reg 0, t.reg VF)

/-- V1, VF after a step. -/
def v1f (t : State) : Byte × Byte := (t.reg 1, t.reg VF)

/-- The start state with another value of one parameter. -/
def withParams (f : Params → Params) (s : State) : State := { s with params := f s.params }

/-- SP at `n`, every slot holding `a`. -/
def stacked (n : Fin 17) (a : Half) : State := { start with SP := n, stack := Vector.replicate 16 a }

/-- One byte stored. -/
def poke (a : Nat) (b : Byte) (s : State) : State := s.storeBytes a [b]

/-- One key pressed. -/
def press (k : Fin 16) (s : State) : State := s.setKey k true

/-- One pixel lit. -/
def lit (r : Fin 32) (c : Fin 64) (s : State) : State :=
  { s with disp := s.disp.set r.val (s.disp[r].set c.val true c.isLt) r.isLt }

/-- The pc set. -/
def at' (pc : Half) (s : State) : State := { s with pc := pc }

/-! ## Well-formedness (R8: a sprite has at most 15 rows) -/

theorem test_wellformed_refuses_sixteen_rows : (Instr.drw 0 0 16).wellFormed = false := by decide
theorem test_wellformed_accepts_fifteen_rows : (Instr.drw 15 15 15).wellFormed = true := by decide

/-! ## Decoding: a word of every row, written out from R80 and R82 -/

theorem test_decode_control :
    decodeWord 0b0000_0000_1110_1110 = .insn .ret ∧
    decodeWord 0b0001_1010_1011_1100 = .insn (.jp 0xABC) ∧
    decodeWord 0b0010_0100_0000_0001 = .insn (.call 0x401) ∧
    decodeWord 0b0011_0011_0100_0010 = .insn (.seByte 3 0x42) ∧
    decodeWord 0b0100_0011_1100_0010 = .insn (.sneByte 3 0xC2) ∧
    decodeWord 0b0101_0101_0110_0000 = .insn (.seReg 5 6) ∧
    decodeWord 0b1001_0101_0110_0000 = .insn (.sneReg 5 6) ∧
    decodeWord 0b1011_1111_0000_1110 = .insn (.jpV0 0xF0E) := by decide

theorem test_decode_registers :
    decodeWord 0b0110_1010_1001_1100 = .insn (.ldByte 10 0x9C) ∧
    decodeWord 0b0111_0001_1111_1110 = .insn (.addByte 1 0xFE) ∧
    decodeWord 0b1000_0001_0010_0000 = .insn (.ldReg 1 2) ∧
    decodeWord 0b1000_0001_0010_0001 = .insn (.orReg 1 2) ∧
    decodeWord 0b1000_0001_0010_0010 = .insn (.andReg 1 2) ∧
    decodeWord 0b1000_0001_0010_0011 = .insn (.xorReg 1 2) ∧
    decodeWord 0b1000_0001_0010_0100 = .insn (.addReg 1 2) ∧
    decodeWord 0b1000_0001_0010_0101 = .insn (.sub 1 2) ∧
    decodeWord 0b1000_0001_0010_0110 = .insn (.shr 1 2) ∧
    decodeWord 0b1000_0001_0010_0111 = .insn (.subn 1 2) ∧
    decodeWord 0b1000_0001_0010_1110 = .insn (.shl 1 2) ∧
    decodeWord 0b1100_1101_0000_1111 = .insn (.rnd 13 0x0F) := by decide

theorem test_decode_memory_display :
    decodeWord 0b1010_0001_0010_0011 = .insn (.ldI 0x123) ∧
    decodeWord 0b1111_0011_0001_1110 = .insn (.addI 3) ∧
    decodeWord 0b1111_0011_0010_1001 = .insn (.ldF 3) ∧
    decodeWord 0b1111_1010_0011_0011 = .insn (.ldB 10) ∧
    decodeWord 0b1111_0011_0101_0101 = .insn (.storeRegs 3) ∧
    decodeWord 0b1111_0010_0110_0101 = .insn (.loadRegs 2) ∧
    decodeWord 0b0000_0000_1110_0000 = .insn .cls ∧
    decodeWord 0b1101_1010_1011_0110 = .insn (.drw 10 11 6) := by decide

theorem test_decode_timers_keys :
    decodeWord 0b1110_0101_1001_1110 = .insn (.skp 5) ∧
    decodeWord 0b1110_0101_1010_0001 = .insn (.sknp 5) ∧
    decodeWord 0b1111_0001_0000_0111 = .insn (.ldVxDT 1) ∧
    decodeWord 0b1111_0100_0000_1010 = .insn (.ldVxK 4) ∧
    decodeWord 0b1111_1100_0001_0101 = .insn (.ldDT 12) ∧
    decodeWord 0b1111_0010_0001_1000 = .insn (.ldST 2) := by decide

/-- R83, R87: invalid words of each class; words with don't-care bits set. -/
theorem test_decode_invalid_and_dont_care :
    decodeWord 0x800F = .softInvalid ∧ decodeWord 0xE1FF = .softInvalid ∧
    decodeWord 0x0123 = .fatalInvalid ∧ decodeWord 0xF0FF = .fatalInvalid ∧
    decodeWord 0x05E0 = .insn .cls ∧ decodeWord 0x5561 = .insn (.seReg 5 6) ∧ decodeWord 0x956F = .insn (.sneReg 5 6) := by
  decide

theorem test_encode_of_the_programs :
    encode (.jpV0 0x206) = 0xB206 ∧ encode (.storeRegs 1) = 0xF155 ∧ encode (.sub 3 2) = 0x8325 ∧
    decodeBytes [0xD0, 0x11, 0xD0] = .ok (.drw 0 1 1, [0xD0]) ∧ decodeBytes [0x60] = .error .truncated ∧
    decodeTableWord 16 0x00EE = some .ret := by decide

/-! ## Step, fetch, invalid words -/

/-- X-1: an instruction in the last two bytes runs; its pc is then 0x1000. -/
theorem test_last_word_runs : view (fun t => (t.reg 0, t.pc)) (run 0x6007 (at' 0xFFE start)) = some (7, 0x1000) := by
  decide
/-- X-2, X-3. -/
theorem test_fetch_faults :
    view (·.status) (step (at' 0x1000 start)) = some (.halted (.memoryOutOfRange .fetch 0x1000 0x1000)) ∧
    view (·.status) (step (at' 0xFFF start)) = some (.halted (.memoryOutOfRange .fetch 4096 0xFFF)) := by decide
/-- X-4. -/
theorem test_odd_pc : view (fun t => (t.reg 1, t.pc)) (run 0x6122 (at' 0x201 start)) = some (0x22, 0x203) := by decide
/-- X-5, X-6, X-15. -/
theorem test_fatal_invalid :
    view (·.status) (step start) = some (.halted (.invalidOpcode 0 0x200)) ∧
    view (fun t => (t.status, t.DT, t.pc)) (run 0x0123 (start.setDT 3)) =
      some (.halted (.invalidOpcode 0x0123 0x200), 3, 0x200) := by decide
/-- X-8. -/
theorem test_soft_invalid_stalls :
    view (fun t => (t.status, t.pc, t.DT)) (run 0x8008 (start.setDT 5)) = some (.running, 0x200, 4) ∧
    stepOutcome (start.withFetchWord 16 0x8008) = .stalled 0x8008 0x200 := by decide
/-- X-9. -/
theorem test_soft_invalid_unified_halts :
    view (fun t => (t.status, t.DT))
        (run 0x8008 (withParams (fun p => { p with invalidPolicy := .unified }) (start.setDT 5))) =
      some (.halted (.invalidOpcode 0x8008 0x200), 5) := by decide
/-- X-14. -/
theorem test_halted_stays :
    view (fun t => (t.status, t.pc, t.reg 0)) (run 0x6007 (start.halt (.stackOverflow 0x200))) =
      some (.halted (.stackOverflow 0x200), 0x200, 0) := by decide
/-- T-1, T-2. -/
theorem test_tick : view (·.DT) (run 0x6000 (start.setDT 3)) = some 2 ∧ view (·.DT) (run 0x6000 start) = some 0 := by
  decide

/-- R202's codes. -/
theorem test_fault_codes :
    [Fault.invalidOpcode 0 0, .memoryOutOfRange .read 4096 0, .stackOverflow 0, .stackUnderflow 0,
      .keyIndexOutOfRange 16 0].map Fault.code = [some 1, some 2, some 3, some 4, some 5] := by decide

/-- The core at creation under `RESET_REGS = Unwritten`. -/
def blankStart : State := State.create { Params.decided with resetRegs := .unwritten } []

/-- R38, R247: a read before the first write faults; a written register reads as usual. -/
theorem test_unwritten_reads :
    view (fun t => (t.status, t.pc)) (run 0x8010 blankStart) = some (.halted (.unwrittenRead (.V 1) 0x200), 0x200) ∧
    view (·.status) (run 0xF107 blankStart) = some (.halted (.unwrittenRead .DT 0x200)) ∧
    view (·.status) (run 0xF033 (blankStart.setReg 0 7)) = some (.halted (.unwrittenRead .I 0x200)) ∧
    view (fun t => (t.reg 0, t.lacks (.V 0), t.lacks (.V 1))) (run 0x6007 blankStart) = some (7, false, true) ∧
    view (fun t => (t.reg 0, t.lacks (.V 0))) (run 0x8010 (blankStart.setReg 1 9)) = some (9, false) := by decide +kernel
/-- R161: n = 0 reads no address; R14: the range check comes before the operand is read. -/
theorem test_unwritten_order :
    view (·.drawFlag) (run 0xD010 ((blankStart.setReg 0 0).setReg 1 0)) = some true ∧
    view (·.status) (run 0xF033 (blankStart.setI 0xFFE)) =
      some (.halted (.memoryOutOfRange .write 4096 0x200)) := by decide +kernel

/-! ## Control transfer -/

/-- C-1, C-3. -/
theorem test_ret :
    view (fun t => (t.SP, t.pc, t.stack[0])) (run 0x00EE (at' 0x212 (stacked 1 0x204))) = some (0, 0x206, 0x204) ∧
    view (fun t => (t.SP, t.pc)) (run 0x0FEE (stacked 1 0x300)) = some (0, 0x302) := by decide
/-- C-2. -/
theorem test_ret_underflow :
    view (fun t => (t.status, t.pc)) (run 0x00EE (at' 0x212 start)) = some (.halted (.stackUnderflow 0x212), 0x212) := by
  decide
/-- C-4, C-19. -/
theorem test_jp : view (·.pc) (run 0x1ABC start) = some 0xABC ∧ view (·.pc) (run 0x1201 start) = some 0x201 := by decide
/-- C-6. -/
theorem test_call :
    view (fun t => (t.stack[0], t.SP, t.pc)) (run 0x2400 start) = some (0x200, 1, 0x400) := by decide
/-- C-7. -/
theorem test_call_overflow :
    view (fun t => (t.status, t.SP, t.pc)) (run 0x2400 (at' 0x240 (stacked 16 0))) =
      some (.halted (.stackOverflow 0x240), 16, 0x240) := by decide
/-- C-8, C-9, C-20. -/
theorem test_se_byte :
    view (·.pc) (run 0x3342 (start.setReg 3 0x42)) = some 0x204 ∧
    view (·.pc) (run 0x3343 (start.setReg 3 0x42)) = some 0x202 ∧
    view (·.pc) (run 0x3F01 (start.setReg VF 1)) = some 0x204 := by decide
/-- C-10, C-11. -/
theorem test_sne_byte :
    view (·.pc) (run 0x4342 (start.setReg 3 0x42)) = some 0x202 ∧
    view (·.pc) (run 0x4343 (start.setReg 3 0x42)) = some 0x204 := by decide
/-- C-12, C-13, X-13. -/
theorem test_se_reg :
    view (·.pc) (run 0x5560 ((start.setReg 5 0x10).setReg 6 0x10)) = some 0x204 ∧
    view (·.pc) (run 0x5560 ((start.setReg 5 0x10).setReg 6 0x11)) = some 0x202 ∧
    view (·.pc) (run 0x5561 ((start.setReg 5 0x33).setReg 6 0x33)) = some 0x204 := by decide
/-- C-14, C-15. -/
theorem test_sne_reg :
    view (·.pc) (run 0x9560 ((start.setReg 5 0x10).setReg 6 0x11)) = some 0x204 ∧
    view (·.pc) (run 0x9550 (start.setReg 5 0x10)) = some 0x202 := by decide
/-- C-16, C-17. -/
theorem test_jp_v0 :
    view (·.pc) (run 0xB300 start) = some 0x300 ∧ view (·.pc) (run 0xBFFF (start.setReg 0 0xFF)) = some 0x10FE := by
  decide

/-! ## Registers and arithmetic -/

/-- A-1. -/
theorem test_ld_byte : view (·.reg 10) (run 0x6A9C start) = some 0x9C := by decide
/-- A-3. -/
theorem test_add_byte_wraps : view v1f (run 0x7101 ((start.setReg 1 0xFF).setReg VF 0x55)) = some (0, 0x55) := by decide
/-- A-4. -/
theorem test_add_byte_vf : view (·.reg VF) (run 0x7FFF (start.setReg VF 1)) = some 0 := by decide
/-- A-5. -/
theorem test_ld_reg : view (fun t => (t.reg 0, t.reg 1)) (run 0x8010 (pair 0 0x7E)) = some (0x7E, 0x7E) := by decide
/-- A-6. -/
theorem test_or : view v0f (run 0x8011 ((pair 0xC3 0x3C).setReg VF 9)) = some (0xFF, 9) := by decide
/-- A-7. -/
theorem test_and : view v0f (run 0x8012 ((pair 0xC3 0x3C).setReg VF 9)) = some (0x00, 9) := by decide
/-- A-8. -/
theorem test_xor : view v0f (run 0x8013 ((pair 0xFF 0x0F).setReg VF 9)) = some (0xF0, 9) := by decide
/-- S2, S3, A-9, A-16. -/
theorem test_add_reg :
    view v0f (run 0x8014 (pair 0xFF 0x01)) = some (0x00, 1) ∧ view v0f (run 0x8014 (pair 0x01 0x01)) = some (0x02, 0) ∧
    view v0f (run 0x8014 (pair 0x7F 0x80)) = some (0xFF, 0) ∧ view v1f (run 0x8114 (pair 0 0x80)) = some (0x00, 1) := by
  decide
/-- F-1, F-2, F-12. -/
theorem test_add_reg_vf :
    view (·.reg VF) (run 0x8F14 ((start.setReg VF 0x05).setReg 1 0xFF)) = some 1 ∧
    view v1f (run 0x81F4 ((start.setReg VF 0x05).setReg 1 0xFF)) = some (0x04, 1) ∧
    view (·.reg VF) (run 0x8FF4 (start.setReg VF 0x80)) = some 1 := by decide
/-- S4, S5, A-10, A-15. -/
theorem test_sub :
    view v0f (run 0x8015 (pair 0x05 0x03)) = some (0x02, 1) ∧ view v0f (run 0x8015 (pair 0x03 0x05)) = some (0x02, 0) ∧
    view v0f (run 0x8015 (pair 0x04 0x04)) = some (0x00, 0) ∧ view v1f (run 0x8115 (pair 0 0x07)) = some (0x00, 0) := by
  decide
/-- F-3 to F-6. -/
theorem test_sub_vf :
    view (·.reg VF) (run 0x8F15 ((start.setReg VF 0x05).setReg 1 0x03)) = some 0xFE ∧
    view (·.reg VF) (run 0x8F15 ((start.setReg VF 0x03).setReg 1 0x05)) = some 0x05 ∧
    view v1f (run 0x81F5 ((start.setReg VF 0x03).setReg 1 0x05)) = some (0x04, 1) ∧
    view v1f (run 0x81F5 ((start.setReg VF 0x05).setReg 1 0x03)) = some (0xFD, 0) := by decide
/-- A-11. -/
theorem test_shr :
    view v0f (run 0x8016 (pair 0x05 0xFF)) = some (0x02, 1) ∧ view v0f (run 0x8016 (pair 0x80 0)) = some (0x40, 0) := by
  decide
/-- F-7. -/
theorem test_shr_vf : view (·.reg VF) (run 0x8F06 (start.setReg VF 0xFF)) = some 0 := by decide
/-- A-12, A-13, A-17. -/
theorem test_subn :
    view v0f (run 0x8017 (pair 0x03 0x05)) = some (0x02, 1) ∧ view v0f (run 0x8017 (pair 0x05 0x03)) = some (0xFE, 0) ∧
    view v0f (run 0x8017 (withParams (fun p => { p with subnUnderflow := .swap }) (pair 0x05 0x03))) = some (0x02, 0) ∧
    view v1f (run 0x8117 (pair 0 0x07)) = some (0x00, 0) := by decide
/-- F-10, F-11. -/
theorem test_subn_vf :
    view (·.reg VF) (run 0x8F17 ((start.setReg VF 0x03).setReg 1 0x05)) = some 0x04 ∧
    view v1f (run 0x81F7 ((start.setReg VF 0x03).setReg 1 0x05)) = some (0xFB, 0) := by decide
/-- A-14. -/
theorem test_shl :
    view v0f (run 0x801E (pair 0x81 0xFF)) = some (0x02, 1) ∧ view v0f (run 0x801E (pair 0x40 0)) = some (0x80, 0) := by
  decide
/-- F-8, F-9. -/
theorem test_shl_vf :
    view (·.reg VF) (run 0x8F0E (start.setReg VF 0x80)) = some 2 ∧
    view (·.reg VF) (run 0x8F0E (start.setReg VF 0x7F)) = some 0 := by decide
/-- R131: one draw a step. -/
theorem test_rnd_counts : view (fun t => (t.draws, t.pc)) (run 0xC00F start) = some (1, 0x202) := by decide

/-! ## Index register and memory -/

/-- M-1. -/
theorem test_ld_i : view (·.I) (run 0xA123 start) = some 0x123 := by decide
/-- M-2, M-3. -/
theorem test_add_i :
    view (fun t => (t.I, t.reg VF)) (run 0xF01E ((start.setI 0x0FFF).setReg 0 1)) = some (0x1000, 0) ∧
    view (·.I) (run 0xF01E ((start.setI 0xFFFF).setReg 0 2)) = some 1 := by decide
/-- M-4. -/
theorem test_ld_f :
    view (·.I) (run 0xF029 (start.setReg 0 0x0F)) = some 0x04B ∧
    view (·.I) (run 0xF029 (start.setReg 0 0xFF)) = some 0x4FB := by decide
/-- M-5, M-6. -/
theorem test_bcd :
    view (fun t => (t.byteAt 0x300, t.byteAt 0x301, t.byteAt 0x302)) (run 0xF033 ((start.setI 0x300).setReg 0 156)) =
      some (1, 5, 6) ∧
    view (fun t => (t.byteAt 0xFFD, t.byteAt 0xFFE, t.byteAt 0xFFF)) (run 0xF033 ((start.setI 0xFFD).setReg 0 123)) =
      some (1, 2, 3) := by decide
/-- M-7. -/
theorem test_bcd_fault :
    view (fun t => (t.status, t.byteAt 0xFFE)) (run 0xF033 ((start.setI 0xFFE).setReg 0 255)) =
      some (.halted (.memoryOutOfRange .write 4096 0x200), 0) := by decide
/-- M-8, M-14. -/
theorem test_store :
    view (fun t => (t.byteAt 0x300, t.byteAt 0x301, t.I)) (run 0xF055 ((pair 0xAA 0xBB).setI 0x300)) =
      some (0xAA, 0, 0x300) ∧
    view (·.byteAt 0x40) (run 0xF055 ((pair 0x55 0).setI 0x40)) = some 0x55 := by decide
/-- M-10, M-11. -/
theorem test_store_fault :
    view (fun t => (t.status, t.byteAt 0xFF1)) (run 0xFF55 ((pair 1 1).setI 0xFF1)) =
      some (.halted (.memoryOutOfRange .write 4096 0x200), 0) ∧
    view (·.status) (run 0xF055 (start.setI 0xFFFF)) = some (.halted (.memoryOutOfRange .write 0xFFFF 0x200)) := by decide
/-- R145, with M-12's first bytes. -/
theorem test_load :
    view (fun t => (t.reg 0, t.reg 1, t.reg 2, t.I)) (run 0xF165 ((start.setI 0x300).storeBytes 0x300 [0x10, 0x11, 0x12])) =
      some (0x10, 0x11, 0, 0x300) := by decide
/-- M-13. -/
theorem test_load_fault :
    view (·.status) (run 0xF065 (start.setI 0x1000)) = some (.halted (.memoryOutOfRange .read 0x1000 0x200)) := by decide

/-! ## Display -/

/-- G-1. -/
theorem test_cls :
    view (fun t => (t.pixel 3 5, t.drawFlag, t.reg VF)) (run 0x00E0 (lit 3 5 (start.setReg VF 0x33))) =
      some (false, true, 0x33) := by decide +kernel
/-- S8, G-6: the wrap in columns and the collision. -/
theorem test_drw_wraps_and_collides :
    view (fun t => (t.pixel 0 63, t.pixel 0 0, t.reg VF)) (run 0xD011 (poke 0x300 0xC0 ((pair 63 0).setI 0x300))) =
      some (true, true, 0) ∧
    view (fun t => (t.pixel 0 0, t.pixel 0 1, t.reg VF)) (run 0xD011 (poke 0x300 0xC0 (lit 0 0 (start.setI 0x300)))) =
      some (false, true, 1) := by decide +kernel
/-- G-8, G-9, G-11, G-12. -/
theorem test_drw_corners :
    view (fun t => (t.status, t.reg VF, t.drawFlag)) (run 0xD010 ((start.setI 0xFFFF).setReg VF 5)) =
      some (.running, 0, true) ∧
    view (·.status) (run 0xD012 (start.setI 0xFFF)) = some (.halted (.memoryOutOfRange .read 4096 0x200)) ∧
    view (fun t => (t.pixel 0 10, t.reg VF)) (run 0xDF11 (poke 0x300 0x80 ((start.setI 0x300).setReg VF 0x0A))) =
      some (true, 0) ∧
    view (fun t => (t.pixel 0 6, t.pixel 0 7, t.pixel 0 0, t.reg VF))
      (run 0xD011 (poke 0x300 0xC0 (lit 0 0 (withParams (fun p => { p with spriteBitOrder := .lsbLeft })
        (start.setI 0x300))))) = some (true, true, true, 0) := by decide +kernel

/-! ## Keys and timers -/

/-- K-1, K-2. -/
theorem test_skp :
    view (·.pc) (run 0xE59E (press 7 (start.setReg 5 7))) = some 0x204 ∧
    view (·.pc) (run 0xE59E (start.setReg 5 7)) = some 0x202 := by decide
/-- K-3. -/
theorem test_sknp :
    view (·.pc) (run 0xE5A1 (start.setReg 5 7)) = some 0x204 ∧
    view (·.pc) (run 0xE5A1 (press 7 (start.setReg 5 7))) = some 0x202 := by decide
/-- K-4. -/
theorem test_key_index_faults :
    view (·.status) (run 0xE59E (start.setReg 5 0x10)) = some (.halted (.keyIndexOutOfRange 0x10 0x200)) ∧
    view (·.status) (run 0xE5A1 (start.setReg 5 0x10)) = some (.halted (.keyIndexOutOfRange 0x10 0x200)) := by decide
/-- K-5. -/
theorem test_key_wait_blocks :
    view (fun t => (t.pc, t.DT)) (run 0xF40A (start.setDT 3)) = some (0x200, 3) ∧
    stepOutcome (start.withFetchWord 16 0xF40A) = .blocked := by decide
/-- K-6. -/
theorem test_key_wait_lowest :
    view (fun t => (t.reg 4, t.pc)) (run 0xF40A (press 9 (press 3 start))) = some (3, 0x202) := by decide
/-- T-3. -/
theorem test_ld_vx_dt : view (fun t => (t.reg 1, t.DT)) (run 0xF107 (start.setDT 5)) = some (5, 4) := by decide
/-- T-4, T-5. -/
theorem test_ld_dt :
    view (·.DT) (run 0xF015 (start.setReg 0 1)) = some 0 ∧ view (·.DT) (run 0xF015 (start.setReg 0 0xFF)) = some 0xFE := by
  decide
/-- T-6. -/
theorem test_ld_st :
    view (fun t => (t.ST, t.DT)) (run 0xF218 ((start.setReg 2 0x10).setDT 3)) = some (0x10, 2) := by decide

/-! ## Creation and the host interface -/

/-- R28: glyph F at 0x04B; R38: zero behind the font. -/
theorem test_font : [start.byteAt 0x04B, start.byteAt 0x04C, start.byteAt 0x04F, start.byteAt 0x050] = [0xF0, 0x80, 0x80, 0] := by
  decide
/-- L-4, and the byte order of the fetch that follows. -/
theorem test_load_program :
    hostView (fun r t => (r, [t.byteAt 0x200, t.byteAt 0x201, t.byteAt 0x202, t.byteAt 0x203]))
        (hostCall (.loadProgram (some [0x12, 0x00, 0x60])) start) = some (.loaded .ok, [0x12, 0x00, 0x60, 0x00]) ∧
    hostView (fun _ t => view (·.pc) (step t)) (hostCall (.loadProgram (some [0x12, 0x34])) start) =
      some (some 0x234) := by decide +kernel
/-- L-2. -/
theorem test_load_too_large :
    hostView (fun r t => (r, t.mem)) (hostCall (.loadProgram (some (List.replicate 3585 1))) start) =
      some (.loaded .programTooLarge, []) := by decide +kernel
/-- L-5. -/
theorem test_load_io_failure :
    hostView (fun r t => (r, t.mem)) (hostCall (.loadProgram none) start) = some (.loaded .ioFailure, []) := by
  decide +kernel
/-- D23: no second load, not even after an empty image (L-3), and none after a step. -/
theorem test_load_once :
    hostView (fun r t => (r, hostRefusal (hostCall (.loadProgram (some [1])) t)))
        (hostCall (.loadProgram (some [])) start) = some (.loaded .ok, some .loadNotOnFreshState) ∧
    view (fun t => hostRefusal (hostCall (.loadProgram (some [1])) t)) (run 0x1200 start) =
      some (some .loadNotOnFreshState) := by decide +kernel
/-- H-1. -/
theorem test_take_draw_flag :
    hostView (fun r t => (r, t.drawFlag)) (hostCall .takeDrawFlag { start with drawFlag := true }) =
      some (.drawFlag true, false) := by decide
/-- H-3, H-5. -/
theorem test_keys :
    hostView (fun r t => (r, t.keyDown? 4, t.keyDown? 5)) (hostCall (.keyDown 4) (press 4 start)) =
      some (.done, true, false) ∧
    hostView (fun r t => (r, t.keyDown? 4)) (hostCall (.keyUp 4) (press 4 start)) = some (.done, false) ∧
    hostRefusal (hostCall (.keyDown 16) start) = some (.keyIndexContract 16) := by decide

/-! ## Witnesses -/

/-- The start state with a word where the step fetches. -/
def loaded (w : Nat) (s : State) : State := s.withFetchWord 16 w

/-- The start state under `VF_ALIAS = Unspecified`. -/
def unspecified : State := withParams (fun p => { p with vfAlias := .unspecified }) start

/-- At reset every register holds a value (D1, `Zero`). -/
theorem start_allWritten : start.AllWritten := by
  rintro (r | _ | _)
  · revert r; decide
  · rfl
  · rfl

theorem start_reads : ¬ start.ReadsUnwritten := fun ⟨_, _, r, _, _, _, h⟩ => by
  rw [start_allWritten r] at h; cases h

/-- After a step the invariant asks only for its first three clauses. -/
theorem inv_of_stepped {s : State} (hs : s.stage = .stepped)
    (h : s.mem.wf = true ∧ s.pc.toNat ≤ 0x10FE ∧ ∀ j : Fin 16, s.stack[j].toNat ≤ 4094) : s.Inv :=
  ⟨h.1, h.2.1, h.2.2, fun h' => absurd hs h', fun h' => by rw [hs] at h'; cases h'⟩

theorem start_inv : start.Inv := by
  refine ⟨by decide, by decide, by decide, fun _ => ?_, fun _ a h _ => Memory.background_eq_zero h⟩
  unfold State.AsCreated; decide +kernel

theorem witness_DecodeOfEncode : (Instr.drw 15 15 15).WellFormed ∧ (Instr.jp 0xFFF).WellFormed := by decide

theorem witness_DecoderFollowsTheOpcodeMap :
    decodeWord 0x0FE0 = .insn .cls ∧ (Instr.drw 0 0 0).row.Matches 0xDFFF ∧
    (Instr.seReg 0 0).row.Matches 0x556F ∧ (Instr.seReg 1 2).row.Matches 0x556F := by decide

theorem witness_DontCareBitsAreIgnored :
    decodeWord 0x5561 = .insn (.seReg 5 6) ∧ (0x5560 : Half) &&& (Instr.seReg 5 6).careMask = 0x5561 &&& 0xFFF0 ∧
    decodeWord 0x0FEE = .insn .ret := by decide

theorem witness_InvalidWordsAreTheTwoClasses :
    decodeWord 0x8FF8 = .softInvalid ∧ decodeWord 0xEF9F = .softInvalid ∧ decodeWord 0x0000 = .fatalInvalid ∧
    decodeWord 0xF066 = .fatalInvalid ∧ decodeWord 0x8FFE = .insn (.shl 15 15) := by decide

theorem witness_CreationValues : (List.replicate 80 (0xFF : Byte)).length = 80 ∧ fontImage.length = 80 := by decide

theorem witness_ReadsReturnTheLatestWrite :
    ∀ w ∈ ([(4095, 1), (0, 0xF0), (4095, 2)] : List Host.Cell), w.1 ≤ 4095 := by decide

theorem witness_EqualMemoriesAreEqualData :
    Memory.wf [(0, 1), (4095, 2)] = true ∧
    ∀ a, a ≤ 4095 → Memory.read [(0, 1), (4095, 2)] a = Memory.read [(0, 1), (4095, 2)] a :=
  ⟨by decide, fun _ _ => rfl⟩

theorem witness_StepRunsTheDecodedInstruction :
    (loaded 0x8014 start).AtWord 0x8014 ∧ decodeWord 0x8014 = .insn (.addReg 0 1) ∧
    ∀ r, Reads (.addReg 0 1) (loaded 0x8014 start) r → (loaded 0x8014 start).lacks r = false :=
  ⟨by unfold State.AtWord; decide, by decide, fun r _ => start_allWritten r⟩

theorem witness_FetchIsBigEndianOrFaults :
    (at' 4094 start).status = .running ∧ (at' 4094 start).pc.toNat + 1 ≤ 4095 ∧
    4095 < (at' 4095 start).pc.toNat + 1 ∧ 4095 < (at' 4096 start).pc.toNat + 1 := by decide

theorem witness_InvalidWordsHaltOrStall :
    ((loaded 0x0123 start).AtWord 0x0123 ∧ decodeWord 0x0123 = .fatalInvalid) ∧
    ((loaded 0x8008 start).AtWord 0x8008 ∧ decodeWord 0x8008 = .softInvalid ∧
      (loaded 0x8008 start).params.invalidPolicy = .original) ∧
    (withParams (fun p => { p with invalidPolicy := .unified }) (loaded 0x8008 start)).AtWord 0x8008 ∧
    (withParams (fun p => { p with invalidPolicy := .unified }) start).params.invalidPolicy = .unified := by
  unfold State.AtWord; decide

theorem witness_HaltedCoreStaysHalted :
    (start.halt (.stackOverflow 0x200)).status = .halted (.stackOverflow 0x200) := by decide

/-- A state for each of the four outcomes. -/
theorem witness_StepEndsInOneOfFourOutcomes :
    start.status = .running ∧ stepOutcome (loaded 0x6001 start) = .executed ∧
    stepOutcome (loaded 0xF00A start) = .blocked ∧ stepOutcome (loaded 0x8008 start) = .stalled 0x8008 0x200 ∧
    stepOutcome start = .halted (.invalidOpcode 0 0x200) := by decide

/-- A state for each clause. -/
theorem witness_ReadBeforeWriteFaults :
    (loaded 0x8010 blankStart).ReadsUnwritten ∧ blankStart.status = .running ∧
    stepOutcome (loaded 0x8010 blankStart) = .halted (.unwrittenRead (.V 1) 0x200) ∧ ¬ start.ReadsUnwritten :=
  ⟨⟨0x8010, .ldReg 0 1, .V 1, by unfold State.AtWord; decide +kernel, by decide, rfl, by decide⟩, by decide,
    by decide +kernel, start_reads⟩

theorem witness_UnderZeroNoReadFaults :
    Params.decided.resetRegs = .zero ∧ start.AllWritten ∧ start.status = .running ∧
    ∃ t, hostCall (.keyDown 0) start = .next (.done, t) :=
  ⟨rfl, start_allWritten, rfl, _, rfl⟩

theorem witness_FaultsArePrecise :
    ∃ t, start.status = .running ∧ step start = .next t ∧ t.status = .halted (.invalidOpcode 0 0x200) :=
  ⟨_, rfl, rfl, rfl⟩

/-- A state just inside and just outside each row of the fault table. -/
theorem witness_InstructionsFaultAsTabulated :
    tabledFault .ret start = some (.stackUnderflow 0x200) ∧ tabledFault .ret (stacked 1 0) = none ∧
    tabledFault (.call 0) (stacked 16 0) = some (.stackOverflow 0x200) ∧ tabledFault (.call 0) (stacked 15 0) = none ∧
    tabledFault (.skp 0) (pair 16 0) = some (.keyIndexOutOfRange 16 0x200) ∧ tabledFault (.sknp 0) (pair 15 0) = none ∧
    tabledFault (.ldB 0) (start.setI 4094) = some (.memoryOutOfRange .write 4096 0x200) ∧
    tabledFault (.ldB 0) (start.setI 4093) = none ∧
    tabledFault (.storeRegs 15) (start.setI 4081) = some (.memoryOutOfRange .write 4096 0x200) ∧
    tabledFault (.loadRegs 15) (start.setI 4080) = none ∧ tabledFault (.drw 0 0 0) (start.setI 0xFFFF) = none ∧
    tabledFault (.drw 0 0 1) (start.setI 0xFFFF) = some (.memoryOutOfRange .read 0xFFFF 0x200) := by decide

theorem witness_DelayTimerTicksOncePerStep :
    (loaded 0xF015 start).status = .running ∧ (∃ t, step (loaded 0xF015 start) = .next t) ∧
    (loaded 0xF015 start).AtWord 0xF015 ∧ decodeWord 0xF015 = .insn (.ldDT 0) ∧
    stepOutcome (loaded 0xF015 start) = .executed ∧ (loaded 0xF007 start).AtWord 0xF007 ∧
    decodeWord 0xF007 = .insn (.ldVxDT 0) ∧ stepOutcome (loaded 0xF007 start) = .executed ∧
    stepOutcome (loaded 0xF00A start) = .blocked ∧ stepOutcome start = .halted (.invalidOpcode 0 0x200) ∧
    fetchWord (loaded 0x8008 start) = 0x8008 ∧ decodeWord 0x8008 = .softInvalid ∧
    stepOutcome (loaded 0x8008 start) = .stalled 0x8008 0x200 := by
  refine ⟨by decide, ⟨_, rfl⟩, ?_⟩
  unfold State.AtWord; decide

/-- A call at the last fetched address keeps the invariant at its bound. -/
theorem witness_StepKeepsTheInvariant :
    (loaded 0x2FFF (at' 4094 start)).stepped.Inv ∧
    view (fun t => (t.stack[0], t.pc)) (step (loaded 0x2FFF (at' 4094 start)).stepped) = some (4094, 0xFFF) :=
  ⟨inv_of_stepped rfl (by decide), by decide⟩

/-- A skip taken at the last fetched address, and an indexed jump to the highest pc. -/
theorem witness_ProgramCounterNeverWraps :
    (loaded 0x3000 (at' 4094 start)).stepped.Inv ∧ (loaded 0x3000 (at' 4094 start)).stepped.AtWord 0x3000 ∧
    decodeWord 0x3000 = .insn (.seByte 0 0) ∧
    (∃ t, step (loaded 0x3000 (at' 4094 start)).stepped = .next t) ∧
    stepOutcome (loaded 0x3000 (at' 4094 start)).stepped = .executed ∧
    integerNextPc (.seByte 0 0) (loaded 0x3000 (at' 4094 start)).stepped = 4098 ∧
    integerNextPc (.jpV0 0xFFF) (start.setReg 0 0xFF) = 0x10FE ∧
    integerNextPc .ret (stacked 16 4094) = 4096 :=
  ⟨inv_of_stepped rfl (by decide), by unfold State.AtWord; decide, by decide, ⟨_, rfl⟩, by decide, by decide, by decide,
    by decide⟩

/-- Each of the six writers changes what it may. -/
theorem witness_IndexStackAndSoundWriters :
    view (·.I) (run 0xA001 start) = some 1 ∧ view (·.SP) (run 0x2200 start) = some 1 ∧
    view (·.ST) (run 0xF018 (pair 7 0)) = some 7 ∧ start.I = 0 ∧ start.SP = 0 ∧ start.ST = 0 := by decide

theorem witness_MemoryAndScreenWriters :
    view (fun t => decide (t.mem = (loaded 0xF055 (start.setReg 0 7)).mem)) (run 0xF055 (start.setReg 0 7)) =
      some false ∧
    view (·.drawFlag) (run 0x00E0 start) = some true ∧ start.drawFlag = false := by decide

theorem witness_CallPushesItsOwnAddress : (stacked 15 0).SP.val < 16 ∧ (stacked 16 0).SP.val = 16 := by decide

theorem witness_ReturnPopsAndAddsTwo :
    (stacked 16 0).SP.val = (15 : Fin 16).val + 1 ∧ (stacked 1 0).SP.val = (0 : Fin 16).val + 1 ∧
    (stacked 0 0).SP.val = 0 := by decide

theorem witness_ReturnUndoesCall : (stacked 15 0).SP.val < 16 := by decide

theorem witness_KeySkips :
    ((pair 15 0).reg 0).toNat = (15 : Fin 16).val ∧ 15 < ((pair 16 0).reg 0).toNat := by decide

/-- An aliased form under `Sequential`, a form without VF under `Unspecified`. -/
theorem witness_AddWithCarry :
    ((pair 0xFF 0).reg 0).toNat = 255 ∧ start.params.vfAlias = .sequential ∧
    unspecified.params.vfAlias = .unspecified ∧ (0 : Reg) ≠ VF ∧ (1 : Reg) ≠ VF := by decide

/-- Every clause: no VF, x = VF, y = VF, both, under `Sequential`. -/
theorem witness_SubtractSwapping :
    ((pair 5 3).reg 0).toNat = 5 ∧ ((pair 5 3).reg 1).toNat = 3 ∧ (pair 5 3).params.vfAlias = .sequential ∧
    (0 : Reg) ≠ VF ∧ (15 : Reg) = VF := by decide

theorem witness_ReverseSubtract :
    ∃ result : Nat → Nat → Nat, ((pair 5 3).reg 0).toNat = 5 ∧ ((pair 5 3).reg 1).toNat = 3 ∧
      (0 : Nat) = (if 5 < 3 then 1 else 0) ∧ (pair 5 3).params.vfAlias = .sequential ∧
      (∀ p q, result p q = match (pair 5 3).params.subnUnderflow with
        | .wrap => (q + 256 - p) % 256
        | .swap => if p ≤ q then q - p else p - q) ∧ (15 : Reg) = VF ∧ (0 : Reg) ≠ VF :=
  ⟨fun p q => (q + 256 - p) % 256, by decide, by decide, by decide, by decide, fun _ _ => rfl, by decide, by decide⟩

theorem witness_ShiftsByOne :
    ((pair 0x81 0).reg 0).toNat = 0x81 ∧ (pair 0x81 0).params.vfAlias = .sequential ∧ (0 : Reg) ≠ VF ∧
    (15 : Reg) = VF := by decide

/-- Each disjunct of the statement: an aliased `8xy4`, an aliased `8xy5` by y, an aliased shift. -/
theorem witness_AliasedFlagsAreFreeWhenUnspecified :
    unspecified.params.vfAlias = .unspecified ∧
    ((Instr.addReg 15 0 = .addReg 15 0 ∨ Instr.addReg 15 0 = .sub 15 0 ∨ Instr.addReg 15 0 = .subn 15 0) ∧
      ((15 : Reg) = VF ∨ (0 : Reg) = VF)) ∧
    ((0 : Reg) = VF ∨ (15 : Reg) = VF) ∧
    ((Instr.shr 15 0 = .shr 15 0 ∨ Instr.shr 15 0 = .shl 15 0) ∧ (15 : Reg) = VF) := by decide

theorem witness_StoresDecimalDigits :
    ((pair 255 0).reg 0).toNat = 255 ∧ (start.setI 4093).I.toNat + 2 ≤ 4095 ∧
    4095 < (start.setI 4094).I.toNat + 2 := by decide

theorem witness_StoresRegisters :
    (start.setI 4080).I.toNat + (15 : Reg).val ≤ 4095 ∧ 4095 < (start.setI 4081).I.toNat + (15 : Reg).val := by decide

theorem witness_LoadsRegisters :
    (start.setI 4095).I.toNat + (0 : Reg).val ≤ 4095 ∧ 4095 < (start.setI 4096).I.toNat + (0 : Reg).val := by decide

theorem witness_LoadRestoresStoredRegisters :
    ∃ t, exec (.storeRegs 15) (start.setI 4080) = .next t ∧ t.status = .running ∧
      (start.setI 4080).status = .running :=
  ⟨_, rfl, rfl, rfl⟩

/-- The range clauses at n = 0, at the last byte, one past it; VF as a position operand and not. -/
theorem witness_DrawFlipsTheSpritePixels :
    (0 ≤ 15 ∧ 15 ≤ 15) ∧ (start.setI 4081).I.toNat + 15 - 1 ≤ 4095 ∧ 4095 < (start.setI 4082).I.toNat + 15 - 1 ∧
    (0 : Reg) ≠ VF ∧ (15 : Reg) = VF ∧ start.params.vfAlias = .sequential ∧
    unspecified.params.vfAlias = .unspecified := by decide

/-- A sprite bit on a lit pixel: the collision clause is met. -/
theorem witness_DrawFlipsTheSpritePixels_collision :
    Covers (poke 0x300 0x80 (lit 0 0 (start.setI 0x300))) 0 0 1 0 0 ∧
    (poke 0x300 0x80 (lit 0 0 (start.setI 0x300))).pixel 0 0 = true :=
  ⟨⟨0, 0, by decide +kernel, by decide +kernel, by decide +kernel, by decide +kernel, by decide +kernel⟩,
    by decide +kernel⟩

theorem witness_DrawingTwiceRestoresTheDisplay :
    (1 : Nat) ≤ 15 ∧ (0 : Reg) ≠ VF ∧ (1 : Reg) ≠ VF ∧ (start.setI 4095).I.toNat + 1 - 1 ≤ 4095 ∧
    start.pixel 0 0 = false := by decide +kernel

theorem witness_KeyWaitTakesTheLowestKey :
    (press 15 start).keyDown? 15 = true ∧ (∀ j : Fin 16, j < 15 → (press 15 start).keyDown? j = false) ∧
    (∀ k, start.keyDown? k = false) := by decide

theorem witness_IdleLoopOnlyTicks :
    (loaded 0x1200 start).Idle ∧ (loaded 0x1FFE (at' 0xFFE start)).Idle := by
  unfold State.Idle State.AtWord; decide

theorem witness_StallNeverEnds : (loaded 0xE000 start).StalledAt 0xE000 := by
  unfold State.StalledAt State.AtWord; decide

theorem witness_KeyWaitHoldsUntilAKey : (loaded 0xFF0A start).WaitingForKey ∧ 15 ≤ 15 :=
  ⟨⟨⟨0xFF0A, 15, by unfold State.AtWord; decide, by decide⟩, by decide⟩, by decide⟩

theorem witness_HostKeysDisplayAndFlag : ∃ k l : Nat, k = 15 ∧ k < 16 ∧ l = 16 ∧ 15 < l := by
  exact ⟨15, 16, by decide⟩

theorem witness_LoaderContract :
    (press 3 start).stage = .fresh ∧ start.Inv ∧ (List.replicate 3584 (7 : Byte)).length ≤ 3584 ∧
    3584 < (List.replicate 3585 (7 : Byte)).length :=
  ⟨rfl, start_inv, by rw [List.length_replicate], by rw [List.length_replicate]; decide⟩

/-- A witness for each clause with hypotheses: a step, a load, a refused state that goes on, a key change. -/
theorem witness_LoadsOnlyBeforeTheFirstStep :
    (∃ t, start.status = .running ∧ step start = .next t) ∧
    (∃ t, hostCall (.loadProgram (some [0x12, 0])) start = .next (.loaded .ok, t)) ∧
    (∃ t, hostCall (.loadProgram none) start.stepped = .refused .loadNotOnFreshState ∧
      hostCall (.keyUp 15) start.stepped = .next (.done, t)) ∧
    (∃ t, start.stage = .fresh ∧ hostCall (.keyDown 15) start = .next (.done, t) ∧ HostCall.keyDown 15 ≠ .step ∧
      HostReply.done ≠ .loaded .ok) :=
  ⟨⟨_, rfl, rfl⟩, ⟨_, rfl⟩, ⟨_, rfl, rfl⟩, ⟨_, rfl, rfl, by decide, by decide⟩⟩

theorem witness_HostActionsKeepTheInvariant :
    start.Inv ∧ ∃ t, hostCall (.loadProgram (some [0x12, 0])) start = .next (.loaded .ok, t) :=
  ⟨start_inv, _, rfl⟩

end Sys2Proof.Tests
end

section
/-! PROOF. What an instruction and a step can leave, said once: the ways they can end, and what each way keeps. -/

namespace Sys2Proof.Machine

/-! ## Instructions that write registers alone -/

/-- `u` is `s` after writes to V0..VF and draws of free bytes: every other part is that of `s`, and no register lost its
value. -/
structure WritesRegisters (s u : State) : Prop where
  mem : u.mem = s.mem
  I : u.I = s.I
  pc : u.pc = s.pc
  stack : u.stack = s.stack
  SP : u.SP = s.SP
  DT : u.DT = s.DT
  ST : u.ST = s.ST
  disp : u.disp = s.disp
  drawFlag : u.drawFlag = s.drawFlag
  key : u.key = s.key
  status : u.status = s.status
  params : u.params = s.params
  stage : u.stage = s.stage
  lacks : ∀ q, s.lacks q = false → u.lacks q = false

namespace WritesRegisters

variable {s u : State}

theorem refl (s : State) : WritesRegisters s s :=
  ⟨rfl, rfl, rfl, rfl, rfl, rfl, rfl, rfl, rfl, rfl, rfl, rfl, rfl, fun _ => id⟩

theorem setReg (h : WritesRegisters s u) (r : Reg) (b : Byte) : WritesRegisters s (u.setReg r b) :=
  { h with lacks := fun q hq => by rw [State.setReg_lacks, h.lacks q hq, Bool.false_and] }

theorem drawn (h : WritesRegisters s u) : WritesRegisters s u.drawn := { h with }

theorem setRegFree (h : WritesRegisters s u) (r : Reg) : WritesRegisters s (u.setRegFree r) :=
  (h.setReg r u.freeByte).drawn

theorem setRegsThrough (s : State) (x : Reg) (v : Vector Byte 16) : WritesRegisters s (s.setRegsThrough x v) where
  mem := s.setRegsThrough_mem x v
  I := s.setRegsThrough_I x v
  pc := s.setRegsThrough_pc x v
  stack := s.setRegsThrough_stack x v
  SP := s.setRegsThrough_SP x v
  DT := s.setRegsThrough_DT x v
  ST := s.setRegsThrough_ST x v
  disp := s.setRegsThrough_disp x v
  drawFlag := s.setRegsThrough_drawFlag x v
  key := s.setRegsThrough_key x v
  status := s.setRegsThrough_status x v
  params := s.setRegsThrough_params x v
  stage := s.setRegsThrough_stage x v
  lacks q hq := by rw [State.setRegsThrough_lacks, hq, Bool.false_and]

theorem flagThenReg (s : State) (f : Byte) (x : Reg) (result : State → Byte) :
    WritesRegisters s (Machine.flagThenReg f x result s) :=
  ((refl s).setReg VF f).setReg x _

theorem aliasDraws (s : State) (x : Reg) : WritesRegisters s (Machine.aliasDraws x s) := by
  unfold Machine.aliasDraws
  split
  · exact (refl s).setRegFree VF
  · exact ((refl s).setRegFree VF).setRegFree x

theorem resolveAlias (h : WritesRegisters s u) (aliased : Bool) (x : Reg) :
    WritesRegisters s (Machine.resolveAlias aliased x u s) := by
  rcases resolveAlias_cases aliased x u s with he | ⟨-, -, he⟩
  · rwa [he]
  · rw [he]
    exact aliasDraws s x

theorem subSwapping (s : State) (x y : Reg) : WritesRegisters s (Machine.subSwapping x y s) := by
  unfold Machine.subSwapping
  split
  · exact flagThenReg s _ x _
  · exact flagThenReg s _ x _

end WritesRegisters

/-- A drawn sprite writes the screen, then VF (R161). -/
theorem drawAt_writes (x y : Reg) (n : Nat) (s : State) : ∃ d, WritesRegisters (s.redraw d) (drawAt x y n s) := by
  refine ⟨(drawSprite s.params.spriteBitOrder (s.reg x).toNat (s.reg y).toNat (s.mem.readBytes s.I.toNat n) s.disp).disp,
    ?_⟩
  unfold drawAt
  split
  · exact (WritesRegisters.refl _).setReg VF _
  · split
    · exact (WritesRegisters.refl _).setRegFree VF
    · exact (WritesRegisters.refl _).setReg VF _

/-! ## The ends of an instruction -/

/-- The instructions that write `I` (R24). -/
abbrev WritesIndex (i : Instr) : Prop := (∃ nnn, i = .ldI nnn) ∨ (∃ x, i = .addI x) ∨ (∃ x, i = .ldF x)

/-- The instructions that write the stack and SP (R26). -/
abbrev WritesStack (i : Instr) : Prop := (∃ nnn, i = .call nnn) ∨ i = .ret

/-- The instructions that write the pixels and the draw flag (R32, R164). -/
abbrev WritesScreen (i : Instr) : Prop := i = .cls ∨ ∃ x y n, i = .drw x y n

/-- The instructions that write memory (R50). -/
abbrev WritesMemory (i : Instr) : Prop := (∃ x, i = .ldB x) ∨ ∃ x, i = .storeRegs x

/-- The ways instruction `i` can end in state `s`, each with the state it leaves: a fault of R202's table, the wait of
`Fx0A`, or the writes of one group of instructions, then the pc and the tick. -/
inductive Ends (s : State) : Instr → State → Prop where
  | fault {i : Instr} (f : Fault) (coded : f.code ≠ none) : Ends s i (s.halt f)
  | wait (x : Reg) : Ends s (.ldVxK x) s
  | jump {i : Instr} {p : Half} (le : p.toNat ≤ 0x10FE) : Ends s i (s.retire p)
  | skip {i : Instr} (c : Bool) : Ends s i (s.retire (skipTarget s.pc c))
  | call (nnn : BitVec 12) (room : s.SP.val < 16) :
    Ends s (.call nnn) ((s.push s.pc room).retire (addressOf nnn))
  | ret (used : 0 < s.SP.val) : Ends s .ret (s.pop.retire (returnTarget (s.top used)))
  | registers {i : Instr} {u : State} (writes : WritesRegisters s u) : Ends s i (u.retire (u.pc + 2))
  | screen {i : Instr} {d : Display} {u : State} (hi : WritesScreen i) (writes : WritesRegisters (s.redraw d) u) :
    Ends s i (u.retire (u.pc + 2))
  | index {i : Instr} (hi : WritesIndex i) (a : Half) : Ends s i ((s.setI a).retire (s.pc + 2))
  | delay (x : Reg) (b : Byte) : Ends s (.ldDT x) ((s.setDT b).retire (s.pc + 2))
  | sound (x : Reg) (b : Byte) : Ends s (.ldST x) ((s.setST b).retire (s.pc + 2))
  | store {i : Instr} (hi : WritesMemory i) (a : Nat) (bs : List Byte) :
    Ends s i ((s.storeBytes a bs).retire (s.pc + 2))

theorem addressOf_toNat (nnn : BitVec 12) : (addressOf nnn).toNat = nnn.toNat := by
  have := nnn.isLt
  simp only [addressOf, BitVec.toNat_setWidth]
  omega

/-- The target of `Bnnn` never wraps (R108). -/
theorem indexedTarget_toNat (nnn : BitVec 12) (v : Byte) : (indexedTarget nnn v).toNat = nnn.toNat + v.toNat := by
  have := nnn.isLt
  have := v.isLt
  simp only [indexedTarget, BitVec.toNat_add, BitVec.toNat_setWidth]
  omega

theorem skipIfKey_ends {i : Instr} (want : Bool) (v : Byte) (s : State) :
    ∃ t, skipIfKey want v s = .next t ∧ Ends s i t := by
  unfold skipIfKey
  split
  · exact ⟨_, rfl, .skip _⟩
  · exact ⟨_, rfl, .fault _ nofun⟩

/-- An index-relative access ends as what it does within memory, or faults (R55). -/
theorem withRange_ends {i : Instr} {s u : State} (kind : AccessKind) (count : Nat) (h : Ends s i u) :
    ∃ t, withRange kind count s (.next u) = .next t ∧ Ends s i t := by
  rcases withRange_cases kind count s (.next u) with he | he
  · exact ⟨u, he, h⟩
  · exact ⟨_, he, .fault _ nofun⟩

/-- Every instruction answers a next state, left in one of these ways. -/
theorem exec_ends (i : Instr) (s : State) : ∃ t, exec i s = .next t ∧ Ends s i t := by
  have regs := WritesRegisters.refl s
  cases i with
  | cls => exact ⟨_, rfl, .screen (.inl rfl) (.refl _)⟩
  | ret =>
    by_cases h : 0 < s.SP.val
    · exact ⟨_, dif_pos h, .ret h⟩
    · exact ⟨_, dif_neg h, .fault _ nofun⟩
  | jp nnn => exact ⟨_, rfl, .jump (by rw [addressOf_toNat]; omega)⟩
  | call nnn =>
    by_cases h : s.SP.val < 16
    · exact ⟨_, dif_pos h, .call nnn h⟩
    · exact ⟨_, dif_neg h, .fault _ nofun⟩
  | seByte x kk => exact ⟨_, rfl, .skip _⟩
  | sneByte x kk => exact ⟨_, rfl, .skip _⟩
  | seReg x y => exact ⟨_, rfl, .skip _⟩
  | ldByte x kk => exact ⟨_, rfl, .registers (regs.setReg x _)⟩
  | addByte x kk => exact ⟨_, rfl, .registers (regs.setReg x _)⟩
  | ldReg x y => exact ⟨_, rfl, .registers (regs.setReg x _)⟩
  | orReg x y => exact ⟨_, rfl, .registers (regs.setReg x _)⟩
  | andReg x y => exact ⟨_, rfl, .registers (regs.setReg x _)⟩
  | xorReg x y => exact ⟨_, rfl, .registers (regs.setReg x _)⟩
  | addReg x y => exact ⟨_, rfl, .registers (((regs.setReg x _).setReg VF _).resolveAlias _ x)⟩
  | sub x y => exact ⟨_, rfl, .registers ((WritesRegisters.subSwapping s x y).resolveAlias _ x)⟩
  | shr x y => exact ⟨_, rfl, .registers ((WritesRegisters.flagThenReg s _ x _).resolveAlias _ x)⟩
  | subn x y => exact ⟨_, rfl, .registers ((WritesRegisters.flagThenReg s _ x _).resolveAlias _ x)⟩
  | shl x y => exact ⟨_, rfl, .registers ((WritesRegisters.flagThenReg s _ x _).resolveAlias _ x)⟩
  | sneReg x y => exact ⟨_, rfl, .skip _⟩
  | ldI nnn => exact ⟨_, rfl, .index (.inl ⟨nnn, rfl⟩) _⟩
  | jpV0 nnn => exact ⟨_, rfl, .jump (by rw [indexedTarget_toNat]; omega)⟩
  | rnd x kk => exact ⟨_, rfl, .registers (regs.setReg x _).drawn⟩
  | drw x y n =>
    obtain ⟨d, writes⟩ := drawAt_writes x y n s
    exact withRange_ends _ _ (.screen (.inr ⟨x, y, n, rfl⟩) writes)
  | skp x => exact skipIfKey_ends _ _ s
  | sknp x => exact skipIfKey_ends _ _ s
  | ldVxDT x => exact ⟨_, rfl, .registers (regs.setReg x _)⟩
  | ldVxK x =>
    show ∃ t, execLdVxK x s = .next t ∧ _
    unfold execLdVxK
    cases s.lowestKey with
    | some k => exact ⟨_, rfl, .registers (regs.setReg x _)⟩
    | none => exact ⟨_, rfl, .wait x⟩
  | ldDT x => exact ⟨_, rfl, .delay x _⟩
  | ldST x => exact ⟨_, rfl, .sound x _⟩
  | addI x => exact ⟨_, rfl, .index (.inr (.inl ⟨x, rfl⟩)) _⟩
  | ldF x => exact ⟨_, rfl, .index (.inr (.inr ⟨x, rfl⟩)) _⟩
  | ldB x => exact withRange_ends _ _ (.store (.inl ⟨x, rfl⟩) _ _)
  | storeRegs x => exact withRange_ends _ _ (.store (.inr ⟨x, rfl⟩) _ _)
  | loadRegs x => exact withRange_ends _ _ (.registers (.setRegsThrough s x _))

/-! ## What every end keeps -/

namespace Ends

variable {s t : State} {i : Instr}

theorem stage_eq (h : Ends s i t) : t.stage = s.stage := by
  cases h with
  | registers w => exact w.stage
  | screen _ w => exact w.stage
  | _ => rfl

theorem key_eq (h : Ends s i t) : t.key = s.key := by
  cases h with
  | registers w => exact w.key
  | screen _ w => exact w.key
  | _ => rfl

theorem params_eq (h : Ends s i t) : t.params = s.params := by
  cases h with
  | registers w => exact w.params
  | screen _ w => exact w.params
  | _ => rfl

/-- An instruction leaves the core running as it was, or halts it with a fault of R202. -/
theorem status_cases (h : Ends s i t) : t.status = s.status ∨ ∃ f : Fault, f.code ≠ none ∧ t.status = .halted f := by
  cases h with
  | fault f coded => exact .inr ⟨f, coded, rfl⟩
  | registers w => exact .inl w.status
  | screen _ w => exact .inl w.status
  | _ => exact .inl rfl

/-- A register that holds a value keeps one. -/
theorem lacks_false (h : Ends s i t) {q : RegName} (hq : s.lacks q = false) : t.lacks q = false := by
  cases h with
  | registers w => exact w.lacks q hq
  | screen _ w => exact w.lacks q hq
  | index _ a => rw [State.retire_lacks, State.setI_lacks, hq, Bool.false_and]
  | delay x b => rw [State.retire_lacks, State.setDT_lacks, hq, Bool.false_and]
  | _ => exact hq

theorem writesIndex_of_ne (h : Ends s i t) (hne : t.I ≠ s.I) : WritesIndex i := by
  cases h with
  | registers w => exact absurd w.I hne
  | screen _ w => exact absurd w.I hne
  | index hi => exact hi
  | _ => exact absurd rfl hne

theorem writesStack_of_ne (h : Ends s i t) (hne : t.SP ≠ s.SP ∨ t.stack ≠ s.stack) : WritesStack i := by
  cases h with
  | registers w => exact absurd w.stack (hne.resolve_left (absurd w.SP))
  | screen _ w => exact absurd w.stack (hne.resolve_left (absurd w.SP))
  | call nnn => exact .inl ⟨nnn, rfl⟩
  | ret => exact .inr rfl
  | _ => exact absurd rfl (hne.resolve_left (absurd rfl))

theorem eq_ldST_of_ne (h : Ends s i t) (hne : t.ST ≠ s.ST) : ∃ x, i = .ldST x := by
  cases h with
  | registers w => exact absurd w.ST hne
  | screen _ w => exact absurd w.ST hne
  | sound x => exact ⟨x, rfl⟩
  | _ => exact absurd rfl hne

theorem mem_wf (h : Ends s i t) (hs : s.mem.wf = true) : t.mem.wf = true := by
  cases h with
  | registers w => exact (congrArg Memory.wf w.mem).trans hs
  | screen _ w => exact (congrArg Memory.wf w.mem).trans hs
  | store _ a bs => exact Memory.wf_writeBytes a bs hs
  | _ => exact hs

/-- From a pc a word was fetched at, no instruction moves the pc above 0x10FE, if no return address is above 4094. -/
theorem pc_le (h : Ends s i t) (hpc : s.pc.toNat ≤ 4094) (hstack : ∀ j : Fin 16, s.stack[j].toNat ≤ 4094) :
    t.pc.toNat ≤ 0x10FE := by
  have hnext : (s.pc + 2).toNat ≤ 0x10FE := by bv_omega
  cases h with
  | fault => exact hpc.trans (by decide)
  | wait => exact hpc.trans (by decide)
  | jump le => exact le
  | skip c =>
    have htarget : (skipTarget s.pc c).toNat ≤ 0x10FE := by
      unfold skipTarget
      split
      · bv_omega
      · exact hnext
    exact htarget
  | call nnn => exact (addressOf_toNat nnn).trans_le (by omega)
  | ret used =>
    have htop : (s.top used).toNat ≤ 4094 := hstack ⟨s.SP.val - 1, by omega⟩
    have htarget : (s.top used + 2).toNat ≤ 0x10FE := by bv_omega
    exact htarget
  | registers w => rw [State.retire_pc, w.pc]; exact hnext
  | screen _ w => rw [State.retire_pc, w.pc]; exact hnext
  | index | delay | sound | store => exact hnext

/-- The one address an instruction puts on the stack is its own. -/
theorem stack_le (h : Ends s i t) (hpc : s.pc.toNat ≤ 4094) (hstack : ∀ j : Fin 16, s.stack[j].toNat ≤ 4094)
    (j : Fin 16) : t.stack[j].toNat ≤ 4094 := by
  cases h with
  | call nnn room =>
    rw [State.retire_stack, State.push_stack, Fin.getElem_fin, Vector.getElem_set]
    split
    · exact hpc
    · exact hstack j
  | registers w => rw [State.retire_stack, w.stack]; exact hstack j
  | screen _ w => rw [State.retire_stack, w.stack]; exact hstack j
  | _ => exact hstack j

end Ends

/-! ## The ends of a step -/

/-- The ways a step from `s` can end: no effect on a halted core (R71), a halt outside `exec`, the stall of R84, or
the end of the fetched instruction. -/
inductive StepEnds (s : State) : State → Prop where
  | halted (f : Fault) (hs : s.status = .halted f) : StepEnds s s
  | faulted (f : Fault) (running : s.status = .running) (coded : f.code ≠ none ∨ ∃ r, s.lacks r = true) :
    StepEnds s (s.stepped.halt f)
  | stalled (running : s.status = .running) : StepEnds s (s.stepped.retire s.pc)
  | ran {t : State} (w : Half) (i : Instr) (fetched : s.AtWord w) (decoded : decodeWord w = .insn i)
    (ends : Ends s.stepped i t) : StepEnds s t

/-- Every step answers a next state, left in one of these ways (log 11). -/
theorem step_ends (s : State) : ∃ t, step s = .next t ∧ StepEnds s t := by
  obtain ⟨⟨f, hs⟩, he⟩ | ⟨hs, -, he⟩ | ⟨hs, hp, hw⟩ := step_cases s
  · exact ⟨_, he, .halted f hs⟩
  · exact ⟨_, he, .faulted _ hs (.inl nofun)⟩
  · obtain ⟨i, hd, -, he⟩ | ⟨i, r, -, hr, he⟩ | ⟨-, -, he⟩ | ⟨-, he⟩ := hw
    · obtain ⟨t, ht, ends⟩ := exec_ends i s.stepped
      exact ⟨t, he.trans ht, .ran (fetchWord s) i ⟨hs, by omega, rfl⟩ hd ends⟩
    · exact ⟨_, he, .faulted _ hs (.inr ⟨r, (unwrittenRead_some hr).2⟩)⟩
    · exact ⟨_, he, .stalled hs⟩
    · exact ⟨_, he, .faulted _ hs (.inl nofun)⟩

theorem stepEnds_of_step {s t : State} (h : step s = .next t) : StepEnds s t := by
  obtain ⟨t', ht', ends⟩ := step_ends s
  obtain rfl : t' = t := Host.Outcome.next.inj (ht'.symm.trans h)
  exact ends

namespace StepEnds

variable {s t : State}

theorem key_eq (h : StepEnds s t) : t.key = s.key := by
  cases h with
  | ran _ _ _ _ ends => exact ends.key_eq
  | _ => rfl

theorem params_eq (h : StepEnds s t) : t.params = s.params := by
  cases h with
  | ran _ _ _ _ ends => exact ends.params_eq
  | _ => rfl

end StepEnds

end Sys2Proof.Machine
end

section
/-! PROOF. The family 10_state: creation, the canonical form of memory, the machine invariant, who writes what, and
registers without a value. -/

namespace Sys2Proof.Machine

/-! ## The machine invariant -/

namespace State

/-- Once a step was taken, the invariant says nothing of creation or of a load any more. -/
theorem inv_of_stepped {t : State} (hstage : t.stage = .stepped) (hmem : t.mem.wf = true) (hpc : t.pc.toNat ≤ 0x10FE)
    (hstack : ∀ j : Fin 16, t.stack[j].toNat ≤ 4094) : t.Inv :=
  ⟨hmem, hpc, hstack, fun hne => absurd hstage hne, fun hfresh => nomatch hstage.symm.trans hfresh⟩

end State

theorem StepEnds.inv {s t : State} (h : StepEnds s t) (hs : s.Inv) : t.Inv := by
  have ⟨hmem, hpc, hstack, _, _⟩ := hs
  cases h with
  | halted => exact hs
  | faulted => exact State.inv_of_stepped rfl hmem hpc hstack
  | stalled => exact State.inv_of_stepped rfl hmem hpc hstack
  | ran _ _ fetched _ ends =>
    obtain ⟨-, hfetch, -⟩ := fetched
    exact State.inv_of_stepped ends.stage_eq (ends.mem_wf hmem) (ends.pc_le hfetch hstack) (ends.stack_le hfetch hstack)

/-! ## Memories in canonical form -/

namespace Memory

/-- Below its lower bound a canonical list has no cell. -/
theorem read_of_lt {lo a : Nat} {m : Memory} (h : wfFrom lo m = true) (ha : a < lo) : m.read a = background a := by
  induction m generalizing lo with
  | nil => rfl
  | cons c m ih =>
    obtain ⟨hlo, -, -, hrest⟩ := (wfFrom_cons lo c m).mp h
    rw [read_cons, if_neg (by omega)]
    exact ih hrest (by omega)

/-- A listed cell shows: a canonical list that begins above it reads otherwise there. -/
theorem read_ne_of_first {lo : Nat} {c : Host.Cell} {m m' : Memory} (h : wfFrom lo (c :: m) = true)
    (h' : wfFrom (c.1 + 1) m' = true) : ¬ ∀ a, a ≤ 4095 → read (c :: m) a = read m' a := by
  obtain ⟨-, hlt, hne, -⟩ := (wfFrom_cons lo c m).mp h
  intro hread
  have hc := hread c.1 (by omega)
  rw [read_cons, if_pos rfl, read_of_lt h' (by omega)] at hc
  exact hne hc

/-- Two canonical lists that read the same are the same list: their first cells are at one address, or the lower one
would show. -/
theorem eq_of_read_eq {lo : Nat} {m m' : Memory} (h : wfFrom lo m = true) (h' : wfFrom lo m' = true)
    (hread : ∀ a, a ≤ 4095 → m.read a = m'.read a) : m = m' := by
  induction m generalizing lo m' with
  | nil =>
    cases m' with
    | nil => rfl
    | cons d m' => exact absurd (fun a ha => (hread a ha).symm) (read_ne_of_first h' rfl)
  | cons c m ih =>
    cases m' with
    | nil => exact absurd hread (read_ne_of_first h rfl)
    | cons d m' =>
      obtain ⟨-, hc, hcb, hm⟩ := (wfFrom_cons lo c m).mp h
      obtain ⟨-, hd, hdb, hm'⟩ := (wfFrom_cons lo d m').mp h'
      rcases Nat.lt_trichotomy c.1 d.1 with hlt | heq | hgt
      · exact absurd hread (read_ne_of_first h ((wfFrom_cons _ d m').mpr ⟨hlt, hd, hdb, hm'⟩))
      · have hbyte : c.2 = d.2 := by simpa [read_cons, heq] using hread c.1 (by omega)
        have hrest : ∀ a, a ≤ 4095 → read m a = read m' a := by
          intro a ha
          by_cases hac : a = c.1
          · rw [read_of_lt hm (by omega), read_of_lt hm' (by omega)]
          · simpa [read_cons, hac, heq ▸ hac] using hread a ha
        exact congrArg₂ List.cons (Prod.ext heq hbyte) (ih hm (heq ▸ hm') hrest)
      · exact absurd (fun a ha => (hread a ha).symm) (read_ne_of_first h' ((wfFrom_cons _ c m).mpr ⟨hgt, hc, hcb, hm⟩))

/-- Bytes that are what the unlisted addresses read as leave no cell. -/
theorem writeBytes_eq_nil {bs : List Byte} (hlen : bs.length ≤ 4096)
    (hbs : ∀ a, a < bs.length → (bs[a]?).getD 0 = background a) : writeBytes [] 0 bs = [] := by
  refine eq_of_read_eq (lo := 0) (wf_writeBytes 0 bs wf_nil) wf_nil fun a _ => ?_
  rw [read_writeBytes [] 0 bs (by omega), read_nil]
  split
  · next ha => exact hbs a (by omega)
  · rfl

end Memory

/-! ## Creation -/

namespace State

/-- A byte at creation: the font's below its length, 0 behind it (R38). -/
theorem create_byteAt (p : Params) (font : List Byte) (a : Nat) :
    (create p font).byteAt a = if a < (font.take 80).length then ((font.take 80)[a]?).getD 0 else background a := by
  have hlen : 0 + (font.take 80).length ≤ 4096 := by simp only [List.length_take]; omega
  simpa [byteAt, create, Memory.read_nil] using Memory.read_writeBytes [] 0 (font.take 80) hlen a

/-- Behind the 80 bytes of the font all memory is zero at creation (R38). -/
theorem create_byteAt_behind_font (p : Params) (font : List Byte) {a : Nat} (ha : 0x50 ≤ a) :
    (create p font).byteAt a = 0 := by
  rw [create_byteAt, if_neg (by simp only [List.length_take]; omega), Memory.background_eq_zero ha]

/-- The decided font writes nothing over the background. -/
theorem writeBytes_fontImage : Memory.writeBytes [] 0 (fontImage.take 80) = [] := by
  rw [List.take_of_length_le (by decide)]
  exact Memory.writeBytes_eq_nil (by decide) fun _ _ => rfl

theorem create_decided : create Params.decided fontImage = reset := by
  unfold create
  rw [writeBytes_fontImage]
  rfl

@[simp] theorem create_pixel (p : Params) (font : List Byte) (r : Fin 32) (c : Fin 64) :
    (create p font).pixel r c = false := by
  simp [pixel, create, reset, Creation.display]

@[simp] theorem create_keyDown (p : Params) (font : List Byte) (k : Fin 16) : (create p font).keyDown? k = false := by
  simp [keyDown?, create, reset, Creation.keys]

@[simp] theorem create_reg (p : Params) (font : List Byte) (r : Reg) : (create p font).reg r = 0 := by
  simp [reg, create, reset, Creation.regs]

@[simp] theorem create_stack (p : Params) (font : List Byte) (j : Fin 16) : (create p font).stack[j] = 0 := by
  simp [create, reset, Creation.stack]

/-- Which registers hold a value at creation is `RESET_REGS` alone (D1). -/
theorem create_lacks (p : Params) (font : List Byte) (q : RegName) :
    (create p font).lacks q = decide (p.resetRegs = .unwritten) := by
  cases hp : p.resetRegs with
  | zero => cases q <;> simp [lacks, create, Creation.unwritten, hp]
  | unwritten => cases q <;> simp [lacks, create, Creation.unwritten, hp]

theorem create_asCreated (p : Params) (font : List Byte) : (create p font).AsCreated :=
  ⟨create_reg p font, rfl, rfl, create_stack p font, rfl, rfl, rfl, create_pixel p font, rfl, rfl⟩

theorem create_inv (p : Params) (font : List Byte) : (create p font).Inv := by
  refine ⟨Memory.wf_writeBytes 0 _ Memory.wf_nil, ?_, fun j => ?_, fun _ => create_asCreated p font,
    fun _ a ha _ => create_byteAt_behind_font p font ha⟩
  · show Creation.entry.toNat ≤ 0x10FE
    decide
  · rw [create_stack]
    decide

end State

/-! ## Registers without a value -/

theorem mem_readsAtI {count : Nat} {more : List RegName} {s : State} {r : RegName} :
    r ∈ readsAtI count more s ↔ r = .I ∨ ((count = 0 ∨ s.I.toNat + count ≤ 4096) ∧ r ∈ more) := by
  unfold readsAtI
  rw [List.mem_cons, ← rangeOk_iff]
  split <;> simp [*]

theorem mem_take_finRange {x j : Reg} : j ∈ (List.finRange 16).take (x.val + 1) ↔ j ≤ x := by
  rw [List.mem_take_iff_getElem, Fin.le_def]
  constructor
  · rintro ⟨k, hk, rfl⟩
    simp only [List.length_finRange] at hk
    simp only [List.getElem_finRange, Fin.val_cast]
    omega
  · intro hj
    exact ⟨j.val, by simp only [List.length_finRange]; omega, by simp⟩

/-- The model's list of the registers read is the table of R23. -/
theorem mem_registersRead {i : Instr} {s : State} {r : RegName} : r ∈ registersRead i s ↔ Reads i s r := by
  cases i with
  | drw x y n =>
    by_cases hn : n = 0
    · simp [registersRead, Reads, hn]
    · have hrange : s.I.toNat + n ≤ 4096 ↔ s.I.toNat + n - 1 ≤ 4095 := by omega
      simp only [registersRead, Reads, if_neg hn, mem_readsAtI, hrange, List.mem_cons, List.not_mem_nil, or_false]
      simp only [hn, ne_eq, not_false_eq_true, true_and, false_or]
  | ldB x =>
    have hrange : s.I.toNat + 3 ≤ 4096 ↔ s.I.toNat + 2 ≤ 4095 := by omega
    simp [registersRead, Reads, mem_readsAtI, hrange]
  | storeRegs x =>
    have hrange : s.I.toNat + (x.val + 1) ≤ 4096 ↔ s.I.toNat + x.val ≤ 4095 := by omega
    simp only [registersRead, Reads, mem_readsAtI, hrange, List.mem_map, mem_take_finRange, Nat.succ_ne_zero, false_or,
      eq_comm (b := r)]
  | _ => simp [registersRead, Reads]

/-- The fetched instruction reads a register without a value exactly where the model's check finds one. -/
theorem exists_unwrittenRead {i : Instr} {s : State} {r : RegName} (hread : Reads i s r) (hlacks : s.lacks r = true) :
    ∃ q, unwrittenRead i s = some q ∧ Reads i s q ∧ s.lacks q = true := by
  cases hq : unwrittenRead i s with
  | none =>
    have hheld := unwrittenRead_none.mp hq r (mem_registersRead.mpr hread)
    exact Bool.noConfusion (hlacks.symm.trans hheld)
  | some q =>
    obtain ⟨hmem, hq'⟩ := unwrittenRead_some hq
    exact ⟨q, rfl, mem_registersRead.mp hmem, hq'⟩

/-! ## What a step reports -/

theorem stepOutcome_fetch_fault {s : State} (h : s.status = .running) (hp : 4095 < s.pc.toNat + 1) :
    stepOutcome s = .halted (.memoryOutOfRange .fetch (max s.pc.toNat 4096) s.pc) := by
  simp [stepOutcome, outcomeOf, h, fetchFault, hp]

theorem stepOutcome_fetched {s : State} (h : s.status = .running) (hp : s.pc.toNat + 1 ≤ 4095) :
    stepOutcome s = wordOutcome (fetchWord s) s (runWord exec (fetchWord s) s) := by
  simp [stepOutcome, outcomeOf, h, fetchFault, Nat.not_lt.mpr hp]

/-- A word that leaves a halted core is reported with the core's fault. -/
theorem wordOutcome_halted (w : Half) (s : State) {t : State} {f : Fault} (h : t.status = .halted f) :
    wordOutcome w s (.next t) = .halted f := by
  simp [wordOutcome, h]

/-- An instruction that leaves the core running is reported as executed or blocked. -/
theorem wordOutcome_running {w : Half} {i : Instr} (s : State) {t : State} (hd : decodeWord w = .insn i)
    (h : t.status = .running) : wordOutcome w s (.next t) = if blocks i s then .blocked else .executed := by
  simp [wordOutcome, h, hd]

/-- An invalid word that halts is reported as an invalid opcode. -/
theorem wordOutcome_invalid {w : Half} {s : State} {f : Fault} (hs : s.status = .running)
    (hd : ∀ i, decodeWord w ≠ .insn i) (ho : wordOutcome w s (runWord exec w s) = .halted f) :
    f = .invalidOpcode w s.pc := by
  cases hw : decodeWord w with
  | insn i => exact absurd hw (hd i)
  | softInvalid =>
    cases hp : s.params.invalidPolicy with
    | original => simp [runWord, softInvalidAction, wordOutcome, complete_eq, hw, hp, hs] at ho
    | unified => simpa [runWord, softInvalidAction, wordOutcome, raise_eq, hw, hp, eq_comm] using ho
  | fatalInvalid => simpa [runWord, fatalInvalidAction, wordOutcome, raise_eq, hw, eq_comm] using ho

/-- A reported fault without a number is that of a register without a value, which the fetched instruction reads. -/
theorem readsUnwritten_of_uncoded_halt {s : State} {f : Fault} (hs : s.status = .running)
    (ho : stepOutcome s = .halted f) (hf : f.code = none) : s.ReadsUnwritten := by
  rcases Nat.lt_or_ge 4095 (s.pc.toNat + 1) with hp | hp
  · rw [stepOutcome_fetch_fault hs hp] at ho
    cases ho
    cases hf
  rw [stepOutcome_fetched hs hp] at ho
  by_cases hd : ∃ i, decodeWord (fetchWord s) = .insn i
  · obtain ⟨i, hd⟩ := hd
    cases hr : unwrittenRead i s with
    | some r =>
      obtain ⟨hmem, hlacks⟩ := unwrittenRead_some hr
      exact ⟨fetchWord s, i, r, ⟨hs, by omega, rfl⟩, hd, mem_registersRead.mp hmem, hlacks⟩
    | none =>
      obtain ⟨t, ht, ends⟩ := exec_ends i s
      rw [runWord_insn hd hr, ht] at ho
      rcases ends.status_cases with hrun | ⟨g, coded, hhalt⟩
      · rw [wordOutcome_running s hd (hrun.trans hs)] at ho
        split at ho <;> cases ho
      · rw [wordOutcome_halted _ s hhalt] at ho
        cases ho
        exact absurd hf coded
  · rw [wordOutcome_invalid hs (not_exists.mp hd) ho] at hf
    cases hf

/-! ## Registers that hold a value keep one -/

theorem StepEnds.lacks_false {s t : State} (h : StepEnds s t) {q : RegName} (hq : s.lacks q = false) :
    t.lacks q = false := by
  cases h with
  | ran _ _ _ _ ends => exact ends.lacks_false hq
  | _ => exact hq

/-- Where every register holds a value, a step of a running core halts with a fault of R202 alone. -/
theorem StepEnds.coded_of_allWritten {s t : State} {f : Fault} (h : StepEnds s t) (hs : s.status = .running)
    (hall : s.AllWritten) (hf : t.status = .halted f) : f.code ≠ none := by
  cases h with
  | halted g hg => exact nomatch hs.symm.trans hg
  | faulted g _ coded =>
    obtain rfl : g = f := Status.halted.inj hf
    exact coded.resolve_right fun ⟨r, hr⟩ => Bool.noConfusion ((hall r).symm.trans hr)
  | stalled => exact nomatch hs.symm.trans hf
  | ran _ _ _ _ ends =>
    rcases ends.status_cases with hrun | ⟨g, coded, hg⟩
    · exact nomatch hs.symm.trans (hrun.symm.trans hf)
    · obtain rfl : g = f := Status.halted.inj (hg.symm.trans hf)
      exact coded

/-! ## Host operations -/

/-- Everything a host operation that has a move can leave: the state of a step, a key changed, the draw flag taken, an
image loaded, or the state as it was. -/
theorem hostCall_cases {c : HostCall} {s t : State} {r : HostReply} (h : hostCall c s = .next (r, t)) :
    (c = .step ∧ step s = .next t) ∨ (∃ k b, t = s.setKey k b) ∨ t = s.clearDrawFlag ∨
      (∃ image, s.stage = .fresh ∧ image.length ≤ 3584 ∧ t = s.withImage image) ∨ t = s := by
  have key_case : ∀ k b, setKeyCall k b s = .next (r, t) → ∃ k b, t = s.setKey k b := by
    intro k b hk
    unfold setKeyCall at hk
    split at hk
    · cases hk; exact ⟨_, b, rfl⟩
    · cases hk
  cases c with
  | step =>
    obtain ⟨t', ht', -⟩ := step_ends s
    simp only [hostCall, stepCall, ht'] at h
    cases h
    exact .inl ⟨rfl, ht'⟩
  | loadProgram image =>
    simp only [hostCall, loadProgramCall] at h
    split at h
    · next hfresh =>
      cases image with
      | none => cases h; exact .inr (.inr (.inr (.inr rfl)))
      | some bytes =>
        by_cases hlen : 3584 < bytes.length
        · simp only [if_pos hlen] at h
          cases h
          exact .inr (.inr (.inr (.inr rfl)))
        · simp only [if_neg hlen] at h
          cases h
          exact .inr (.inr (.inr (.inl ⟨bytes, hfresh, Nat.not_lt.mp hlen, rfl⟩)))
    · cases h
  | keyDown k => exact .inr (.inl (key_case k true h))
  | keyUp k => exact .inr (.inl (key_case k false h))
  | display => cases h; exact .inr (.inr (.inr (.inr rfl)))
  | takeDrawFlag => cases h; exact .inr (.inr (.inl rfl))

theorem hostCall_allWritten {c : HostCall} {s t : State} {r : HostReply} (hs : s.AllWritten)
    (h : hostCall c s = .next (r, t)) : t.AllWritten := by
  obtain ⟨-, hstep⟩ | ⟨k, b, rfl⟩ | rfl | ⟨image, -, -, rfl⟩ | rfl := hostCall_cases h
  · exact fun q => (stepEnds_of_step hstep).lacks_false (hs q)
  · exact hs
  · exact hs
  · exact hs
  · exact hs

end Sys2Proof.Machine

/-! ## The obligations -/

namespace Sys2Proof.Proofs

open Machine

/-- Settles O18: a halted core stays as it is, and every other end of a step records that it was taken, so the rest is
memory, pc and stack, end by end. -/
theorem stepKeepsTheInvariant : Obligations.StepKeepsTheInvariant :=
  fun _ _ hs h => (stepEnds_of_step h).inv hs

/-- Settles O9, by induction on the lists: the first cells are at one address, or the lower one would show. -/
theorem equalMemoriesAreEqualData : Obligations.EqualMemoriesAreEqualData :=
  fun _ _ h h' hread => Memory.eq_of_read_eq (lo := 0) h h' hread

/-- Settles O21, from the ends of a step: only an instruction's end can change these parts. -/
theorem indexStackAndSoundWriters : Obligations.IndexStackAndSoundWriters := by
  intro s t h
  cases stepEnds_of_step h with
  | ran w i fetched decoded ends =>
    refine ⟨fun hne => ⟨w, i, fetched, decoded, ends.writesIndex_of_ne hne⟩,
      fun hne => ⟨w, i, fetched, decoded, ends.writesStack_of_ne hne⟩, fun hne => ?_⟩
    obtain ⟨x, rfl⟩ := ends.eq_ldST_of_ne hne
    exact ⟨w, x, fetched, decoded⟩
  | _ => exact ⟨absurd rfl, fun hne => absurd rfl (hne.resolve_left (absurd rfl)), absurd rfl⟩

/-- Settles O23, from the ends of a step, none of which changes a key or a parameter. -/
theorem stepsKeepKeysAndParameters : Obligations.StepsKeepKeysAndParameters := by
  intro s
  obtain ⟨t, ht, ends⟩ := step_ends s
  exact ⟨t, ht, ends.key_eq, ends.params_eq⟩

/-- Settles O57: the model's check finds a register without a value exactly where the table of reads has one, and no
instruction's own fault is without a number. -/
theorem readBeforeWriteFaults : Obligations.ReadBeforeWriteFaults := by
  intro s
  refine ⟨?_, fun r p hs ho => readsUnwritten_of_uncoded_halt hs ho rfl⟩
  rintro ⟨w, i, r, ⟨hs, hp, rfl⟩, hd, hread, hlacks⟩
  obtain ⟨q, hq, hq_reads, hq_lacks⟩ := exists_unwrittenRead hread hlacks
  have hp' : s.pc.toNat + 1 ≤ 4095 := by omega
  refine ⟨q, fetchWord s, i, ⟨hs, hp, rfl⟩, hd, hq_reads, hq_lacks, ?_, ?_⟩
  · exact (step_fetched hs hp').trans (runWord_unwritten hd hq)
  · rw [stepOutcome_fetched hs hp', runWord_unwritten hd hq]
    exact wordOutcome_halted _ s rfl

/-- Settles O58: creation under `Zero` leaves every register with a value, no step or host action takes one away, and
the fault of such a read needs a register without one. -/
theorem underZeroNoReadFaults : Obligations.UnderZeroNoReadFaults := by
  refine ⟨fun p font hp q => ?_, fun s hs => ?_, fun _ _ _ _ hs h => hostCall_allWritten hs h⟩
  · rw [State.create_lacks, hp]
    rfl
  · obtain ⟨t, ht, ends⟩ := step_ends s
    exact ⟨t, ht, fun q => ends.lacks_false (hs q),
      fun hrun r p hf => ends.coded_of_allWritten hrun hs hf rfl⟩

/-- Settles O7, field by field; the reset state is creation because the decided font writes nothing over what an
unlisted address reads as. -/
theorem creationValues : Obligations.CreationValues := by
  refine ⟨fun p font s hlen hs => ?_, State.create_decided⟩
  subst hs
  have hfont : font.take 80 = font := List.take_of_length_le hlen.le
  refine ⟨fun a ha => ?_, fun a ha _ => State.create_byteAt_behind_font p font ha, rfl, rfl,
    State.create_pixel p font, rfl, State.create_keyDown p font, rfl, rfl, rfl, rfl, fun hp => ?_, fun hp q => ?_⟩
  · have ha' : a < font.length := by omega
    rw [State.create_byteAt, hfont, if_pos ha', List.getElem?_eq_getElem ha', Option.getD_some]
  · refine ⟨State.create_reg p font, rfl, State.create_stack p font, rfl, rfl, fun q => ?_⟩
    rw [State.create_lacks, hp]
    rfl
  · rw [State.create_lacks, hp]
    rfl

/-- Settles O19; the reset state is creation with the decided values. -/
theorem creationHasTheInvariant : Obligations.CreationHasTheInvariant :=
  ⟨State.create_decided ▸ State.create_inv Params.decided fontImage, State.create_inv⟩

end Sys2Proof.Proofs
end

section
/-! PROOF. The family 20_memory: reads after any sequence of writes, and who writes memory and the screen. -/

namespace Sys2Proof.Machine.Ends

variable {s t : State} {i : Instr}

theorem writesMemory_of_ne (h : Ends s i t) (hne : t.mem ≠ s.mem) : WritesMemory i := by
  cases h with
  | registers w => exact absurd w.mem hne
  | screen _ w => exact absurd w.mem hne
  | store hi => exact hi
  | _ => exact absurd rfl hne

theorem writesScreen_of_ne (h : Ends s i t) (hne : t.disp ≠ s.disp ∨ t.drawFlag ≠ s.drawFlag) : WritesScreen i := by
  cases h with
  | registers w => exact absurd w.drawFlag (hne.resolve_left (absurd w.disp))
  | screen hi => exact hi
  | _ => exact absurd rfl (hne.resolve_left (absurd rfl))

end Sys2Proof.Machine.Ends

/-! ## The obligations -/

namespace Sys2Proof.Proofs

open Machine

/-- Settles O8, by induction on the writes, the latest taken off first: it gives the read at its own cell, and every
other cell reads as after the writes before it. -/
theorem readsReturnTheLatestWrite : Obligations.ReadsReturnTheLatestWrite := by
  intro m writes a hwrites
  induction writes using List.reverseRecOn with
  | nil => rfl
  | append_singleton earlier w ih =>
    have hw : w.1 < 4096 := Nat.lt_succ_of_le (hwrites w (by simp))
    have hearlier := ih fun v hv => hwrites v (List.mem_append_left _ hv)
    rw [List.foldl_concat, Memory.read_write _ _ hw, List.reverse_concat]
    by_cases ha : a = w.1
    · rw [if_pos ha, List.find?_cons_of_pos (by simp [ha])]
    · rw [if_neg ha, List.find?_cons_of_neg (by simpa using Ne.symm ha)]
      exact hearlier

/-- Settles O22, from the ends of a step: only an instruction's end can change these parts. -/
theorem memoryAndScreenWriters : Obligations.MemoryAndScreenWriters := by
  intro s t h
  cases stepEnds_of_step h with
  | ran w i fetched decoded ends =>
    exact ⟨fun hne => ⟨w, i, fetched, decoded, ends.writesMemory_of_ne hne⟩,
      fun hne => ⟨w, i, fetched, decoded, ends.writesScreen_of_ne hne⟩⟩
  | _ => exact ⟨absurd rfl, fun hne => absurd rfl (hne.resolve_left (absurd rfl))⟩

end Sys2Proof.Proofs
end

section
/-! PROOF. The family 30_encoding, the decoder and the encoder: a word decodes to an instruction exactly where it
matches the instruction's row of R82, and then to the instruction with the word's own fields as operands. -/

namespace Sys2Proof.Laws

/-! ## Masked words as numbers (R81, R82) -/

theorem fieldA_lt (w : Half) : fieldA w < 16 := by
  have := w.isLt
  rw [fieldA_eq]
  omega

theorem wordXK_fields (w : Half) : wordXK (w.extractLsb' 12 4) (fieldX w) (fieldKK w) = w := by
  apply BitVec.eq_of_toNat_eq
  have ha : (w.extractLsb' 12 4).toNat = w.toNat / 4096 := fieldA_eq w
  rw [wordXK_toNat, ha, fieldX_val, fieldKK_toNat]
  omega

theorem wordXYN_fields (w : Half) : wordXYN (w.extractLsb' 12 4) (fieldX w) (fieldY w) (w.extractLsb' 0 4) = w := by
  apply BitVec.eq_of_toNat_eq
  have ha : (w.extractLsb' 12 4).toNat = w.toNat / 4096 := fieldA_eq w
  have hn : (w.extractLsb' 0 4).toNat = w.toNat % 16 := fieldN_eq w
  rw [wordXYN_toNat, ha, hn, fieldX_val, fieldY_val]
  omega

/-- The mask of the rows that give the group alone. -/
theorem and_group_toNat (w : Half) : (w &&& 0xF000).toNat = fieldA w * 4096 := by
  conv_lhs => rw [← wordXK_fields w, wordXK_matches_group, toNat_append_eq]
  simp [fieldA]

/-- The mask of the rows that give the group and the low byte. -/
theorem and_lowByte_toNat (w : Half) : (w &&& 0xF0FF).toNat = fieldA w * 4096 + (fieldKK w).toNat := by
  conv_lhs => rw [← wordXK_fields w, wordXK_matches_low, toNat_append_eq, toNat_append_eq]
  simp [fieldA, Nat.mul_assoc]

/-- The mask of the rows that give the group and the low nibble. -/
theorem and_lowNibble_toNat (w : Half) : (w &&& 0xF00F).toNat = fieldA w * 4096 + fieldN w := by
  conv_lhs => rw [← wordXYN_fields w, wordXYN_matches_low, toNat_append_eq, toNat_append_eq]
  simp [fieldA, fieldN, Nat.mul_assoc]

/-- Matching a row fixes every field its mask gives in full. -/
theorem extract_of_matches {r : OpcodeRow} {w : Half} {start len : Nat} (h : r.Matches w)
    (hmask : r.mask.extractLsb' start len = BitVec.allOnes len) :
    w.extractLsb' start len = r.pattern.extractLsb' start len := by
  rw [← h, BitVec.extractLsb'_and, hmask, BitVec.and_allOnes]

theorem matches_group {w p : Half} (h : fieldA w * 4096 = p.toNat) : OpcodeRow.Matches ⟨0xF000, p⟩ w :=
  BitVec.eq_of_toNat_eq ((and_group_toNat w).trans h)

theorem matches_lowByte {w p : Half} (h : fieldA w * 4096 + (fieldKK w).toNat = p.toNat) :
    OpcodeRow.Matches ⟨0xF0FF, p⟩ w :=
  BitVec.eq_of_toNat_eq ((and_lowByte_toNat w).trans h)

theorem matches_lowNibble {w p : Half} (h : fieldA w * 4096 + fieldN w = p.toNat) : OpcodeRow.Matches ⟨0xF00F, p⟩ w :=
  BitVec.eq_of_toNat_eq ((and_lowNibble_toNat w).trans h)

end Sys2Proof.Laws

namespace Sys2Proof

open Laws

/-! ## The instruction of a row with the fields of a word -/

/-- The instruction of the same row whose operands are the fields of `w` (R81, R82). -/
def Instr.withFields (i : Instr) (w : Half) : Instr :=
  match i with
  | .cls => .cls
  | .ret => .ret
  | .jp _ => .jp (fieldNNN w)
  | .call _ => .call (fieldNNN w)
  | .seByte _ _ => .seByte (fieldX w) (fieldKK w)
  | .sneByte _ _ => .sneByte (fieldX w) (fieldKK w)
  | .seReg _ _ => .seReg (fieldX w) (fieldY w)
  | .ldByte _ _ => .ldByte (fieldX w) (fieldKK w)
  | .addByte _ _ => .addByte (fieldX w) (fieldKK w)
  | .ldReg _ _ => .ldReg (fieldX w) (fieldY w)
  | .orReg _ _ => .orReg (fieldX w) (fieldY w)
  | .andReg _ _ => .andReg (fieldX w) (fieldY w)
  | .xorReg _ _ => .xorReg (fieldX w) (fieldY w)
  | .addReg _ _ => .addReg (fieldX w) (fieldY w)
  | .sub _ _ => .sub (fieldX w) (fieldY w)
  | .shr _ _ => .shr (fieldX w) (fieldY w)
  | .subn _ _ => .subn (fieldX w) (fieldY w)
  | .shl _ _ => .shl (fieldX w) (fieldY w)
  | .sneReg _ _ => .sneReg (fieldX w) (fieldY w)
  | .ldI _ => .ldI (fieldNNN w)
  | .jpV0 _ => .jpV0 (fieldNNN w)
  | .rnd _ _ => .rnd (fieldX w) (fieldKK w)
  | .drw _ _ _ => .drw (fieldX w) (fieldY w) (fieldN w)
  | .skp _ => .skp (fieldX w)
  | .sknp _ => .sknp (fieldX w)
  | .ldVxDT _ => .ldVxDT (fieldX w)
  | .ldVxK _ => .ldVxK (fieldX w)
  | .ldDT _ => .ldDT (fieldX w)
  | .ldST _ => .ldST (fieldX w)
  | .addI _ => .addI (fieldX w)
  | .ldF _ => .ldF (fieldX w)
  | .ldB _ => .ldB (fieldX w)
  | .storeRegs _ => .storeRegs (fieldX w)
  | .loadRegs _ => .loadRegs (fieldX w)

theorem Instr.withFields_row (i : Instr) (w : Half) : (i.withFields w).row = i.row := by cases i <;> rfl

theorem Instr.withFields_careMask (i : Instr) (w : Half) : (i.withFields w).careMask = i.careMask := by cases i <;> rfl

/-- A 4-bit field holds no sprite height above 15. -/
theorem Instr.withFields_wellFormed (i : Instr) (w : Half) : (i.withFields w).WellFormed := by
  cases i with
  | drw x y n =>
    have hn : fieldN w ≤ 15 := by rw [fieldN_eq]; omega
    exact decide_eq_true hn
  | _ => rfl

/-! ## A word that matches a row decodes to an instruction of it (R82) -/

/-- Every row gives the group. -/
theorem fieldA_of_matches {i : Instr} {w : Half} (h : i.row.Matches w) : fieldA w = i.row.pattern.toNat / 4096 := by
  have hmask : i.row.mask.extractLsb' 12 4 = BitVec.allOnes 4 := by cases i <;> simp [Instr.row]
  exact (congrArg BitVec.toNat (extract_of_matches h hmask)).trans (fieldA_eq _)

theorem fieldKK_of_matches {r : OpcodeRow} {w : Half} (h : r.Matches w) (hmask : r.mask = 0xF0FF) :
    (fieldKK w).toNat = r.pattern.toNat % 256 := by
  rw [fieldKK, extract_of_matches h (hmask ▸ by decide)]
  exact fieldKK_toNat _

theorem fieldN_of_matches {r : OpcodeRow} {w : Half} (h : r.Matches w) (hmask : r.mask = 0xF00F) :
    fieldN w = r.pattern.toNat % 16 := by
  rw [fieldN, extract_of_matches h (hmask ▸ by decide)]
  exact fieldN_eq _

theorem decodeWord_of_matches {i : Instr} {w : Half} (h : i.row.Matches w) : decodeWord w = .insn (i.withFields w) := by
  have group := fieldA_of_matches h
  cases i with
  | cls | ret | skp | sknp | ldVxDT | ldVxK | ldDT | ldST | addI | ldF | ldB | storeRegs | loadRegs =>
    have low := fieldKK_of_matches h rfl
    simp [decodeWord, decodeGroup0, decodeGroupE, decodeGroupF, group, low, Instr.row, Instr.withFields]
  | ldReg | orReg | andReg | xorReg | addReg | sub | shr | subn | shl =>
    have low := fieldN_of_matches h rfl
    simp [decodeWord, decodeGroup8, group, low, Instr.row, Instr.withFields]
  | _ => simp [decodeWord, group, Instr.row, Instr.withFields]

/-! ## What a word decodes to, group by group (R73) -/

/-- `i` is of a row that `w` matches, and its operands are the fields of `w`. -/
structure Instr.IsOf (i : Instr) (w : Half) : Prop where
  row : i.row.Matches w
  fields : i.withFields w = i

theorem decodeGroup0_insn {w : Half} {i : Instr} (hg : fieldA w = 0) (h : decodeGroup0 w = .insn i) : i.IsOf w := by
  unfold decodeGroup0 at h
  split at h <;> cases h <;> exact ⟨matches_lowByte (by simp [*]), rfl⟩

theorem decodeGroup8_insn {w : Half} {i : Instr} (hg : fieldA w = 8) (h : decodeGroup8 w = .insn i) : i.IsOf w := by
  unfold decodeGroup8 at h
  split at h <;> cases h <;> exact ⟨matches_lowNibble (by simp [*]), rfl⟩

theorem decodeGroupE_insn {w : Half} {i : Instr} (hg : fieldA w = 0xE) (h : decodeGroupE w = .insn i) : i.IsOf w := by
  unfold decodeGroupE at h
  split at h <;> cases h <;> exact ⟨matches_lowByte (by simp [*]), rfl⟩

theorem decodeGroupF_insn {w : Half} {i : Instr} (hg : fieldA w = 0xF) (h : decodeGroupF w = .insn i) : i.IsOf w := by
  unfold decodeGroupF at h
  split at h <;> cases h <;> exact ⟨matches_lowByte (by simp [*]), rfl⟩

/-- R73: the four groups with a sub-dispatch, and the others, whose words are all instructions. -/
theorem decodeWord_by_group (w : Half) :
    (fieldA w = 0x0 ∧ decodeWord w = decodeGroup0 w) ∨ (fieldA w = 0x8 ∧ decodeWord w = decodeGroup8 w) ∨
    (fieldA w = 0xE ∧ decodeWord w = decodeGroupE w) ∨ (fieldA w = 0xF ∧ decodeWord w = decodeGroupF w) ∨
    (fieldA w ∉ [0x0, 0x8, 0xE, 0xF] ∧ ∃ i : Instr, decodeWord w = .insn i ∧ i.IsOf w) := by
  have hlt := fieldA_lt w
  unfold decodeWord
  -- the dispatch's lines for groups 0x0, 0x8 and 0xE, and its last, which only group 0xF reaches
  split
  case h_1 hg => exact .inl ⟨hg, rfl⟩
  case h_9 hg => exact .inr (.inl ⟨hg, rfl⟩)
  case h_15 hg => exact .inr (.inr (.inl ⟨hg, rfl⟩))
  case h_16 =>
    have hg : fieldA w = 0xF := by grind
    exact .inr (.inr (.inr (.inl ⟨hg, rfl⟩)))
  all_goals exact .inr (.inr (.inr (.inr ⟨by simp [*], _, rfl, matches_group (by simp [*]), rfl⟩)))

/-- A word decodes to an instruction of the row it matches, with its own fields as operands. -/
theorem decodeWord_insn {w : Half} {i : Instr} (h : decodeWord w = .insn i) : i.IsOf w := by
  rcases decodeWord_by_group w with ⟨hg, hd⟩ | ⟨hg, hd⟩ | ⟨hg, hd⟩ | ⟨hg, hd⟩ | ⟨-, j, hd, hj⟩
  · exact decodeGroup0_insn hg (hd ▸ h)
  · exact decodeGroup8_insn hg (hd ▸ h)
  · exact decodeGroupE_insn hg (hd ▸ h)
  · exact decodeGroupF_insn hg (hd ▸ h)
  · cases hd.symm.trans h
    exact hj

/-! ## The two classes of invalid words (R83) -/

theorem decodeGroup8_soft {w : Half} :
    decodeGroup8 w = .softInvalid ↔ fieldN w ∈ [0x8, 0x9, 0xA, 0xB, 0xC, 0xD, 0xF] := by
  have hlt : fieldN w < 16 := by rw [fieldN_eq]; omega
  unfold decodeGroup8
  split <;> simp_all
  grind

theorem decodeGroupE_soft {w : Half} : decodeGroupE w = .softInvalid ↔ (fieldKK w).toNat ∉ [0x9E, 0xA1] := by
  unfold decodeGroupE
  split <;> simp_all

theorem decodeGroup0_fatal {w : Half} : decodeGroup0 w = .fatalInvalid ↔ (fieldKK w).toNat ∉ [0xE0, 0xEE] := by
  unfold decodeGroup0
  split <;> simp_all

theorem decodeGroupF_fatal {w : Half} : decodeGroupF w = .fatalInvalid ↔
    (fieldKK w).toNat ∉ [0x07, 0x0A, 0x15, 0x18, 0x1E, 0x29, 0x33, 0x55, 0x65] := by
  unfold decodeGroupF
  split <;> simp_all

theorem decodeGroup0_ne_soft (w : Half) : decodeGroup0 w ≠ .softInvalid := by
  unfold decodeGroup0
  split <;> nofun

theorem decodeGroupF_ne_soft (w : Half) : decodeGroupF w ≠ .softInvalid := by
  unfold decodeGroupF
  split <;> nofun

theorem decodeGroup8_ne_fatal (w : Half) : decodeGroup8 w ≠ .fatalInvalid := by
  unfold decodeGroup8
  split <;> nofun

theorem decodeGroupE_ne_fatal (w : Half) : decodeGroupE w ≠ .fatalInvalid := by
  unfold decodeGroupE
  split <;> nofun

/-! ## Encoding (R80, R87) -/

@[simp] theorem fieldNNN_wordA (a : BitVec 4) (nnn : BitVec 12) : fieldNNN (wordA a nnn) = nnn := by
  apply BitVec.eq_of_toNat_eq
  rw [fieldNNN_toNat, wordA_toNat]
  omega

@[simp] theorem fieldX_wordXK (a : BitVec 4) (x : Reg) (kk : Byte) : fieldX (wordXK a x kk) = x := by
  apply Fin.ext
  rw [fieldX_val, wordXK_toNat]
  omega

@[simp] theorem fieldKK_wordXK (a : BitVec 4) (x : Reg) (kk : Byte) : fieldKK (wordXK a x kk) = kk := by
  apply BitVec.eq_of_toNat_eq
  rw [fieldKK_toNat, wordXK_toNat]
  omega

@[simp] theorem fieldX_wordXYN (a : BitVec 4) (x y : Reg) (n : BitVec 4) : fieldX (wordXYN a x y n) = x := by
  apply Fin.ext
  rw [fieldX_val, wordXYN_toNat]
  omega

@[simp] theorem fieldY_wordXYN (a : BitVec 4) (x y : Reg) (n : BitVec 4) : fieldY (wordXYN a x y n) = y := by
  apply Fin.ext
  rw [fieldY_val, wordXYN_toNat]
  omega

@[simp] theorem fieldN_wordXYN (a : BitVec 4) (x y : Reg) (n : BitVec 4) : fieldN (wordXYN a x y n) = n.toNat := by
  rw [fieldN_eq, wordXYN_toNat]
  omega

/-- The fields of a well-formed instruction's word are its operands. -/
theorem withFields_encode {i : Instr} (h : i.WellFormed) : i.withFields (encode i) = i := by
  cases i with
  | drw x y n =>
    have hn : n ≤ 15 := of_decide_eq_true h
    have hmod : n % 16 = n := by omega
    simp [encode, Instr.withFields, hmod]
  | _ => simp [encode, Instr.withFields]

theorem wordA_of_group {a : BitVec 4} {w : Half} (hg : fieldA w = a.toNat) : wordA a (fieldNNN w) = w := by
  apply BitVec.eq_of_toNat_eq
  rw [wordA_toNat, fieldNNN_toNat, ← hg, fieldA_eq]
  omega

theorem wordXK_of_group {a : BitVec 4} {w : Half} (hg : fieldA w = a.toNat) : wordXK a (fieldX w) (fieldKK w) = w := by
  rw [← BitVec.eq_of_toNat_eq hg, wordXK_fields]

theorem wordXYN_of_group {a : BitVec 4} {w : Half} (hg : fieldA w = a.toNat) :
    wordXYN a (fieldX w) (fieldY w) (w.extractLsb' 0 4) = w := by
  rw [← BitVec.eq_of_toNat_eq hg, wordXYN_fields]

theorem wordXK_of_lowByte {a : BitVec 4} {kk : Byte} {w : Half} (hg : fieldA w = a.toNat)
    (hkk : (fieldKK w).toNat = kk.toNat) : wordXK a (fieldX w) kk = w := by
  rw [← BitVec.eq_of_toNat_eq hkk, wordXK_of_group hg]

theorem wordXYN_of_lowNibble {a n : BitVec 4} {w : Half} (hg : fieldA w = a.toNat) (hn : fieldN w = n.toNat) :
    wordXYN a (fieldX w) (fieldY w) n = w := by
  rw [← BitVec.eq_of_toNat_eq hn, wordXYN_of_group hg]

/-- Without its low nibble a word of a group still holds x and y (R87, D16). -/
theorem wordXYN_clear_lowNibble {a : BitVec 4} {w : Half} (hg : fieldA w = a.toNat) :
    wordXYN a (fieldX w) (fieldY w) 0 = w &&& 0xFFF0 := by
  conv_rhs => rw [← wordXYN_of_group hg]
  unfold wordXYN
  rw [show (0xFFF0 : Half) = (0xF#4 ++ 0xF#4 ++ 0xF#4 ++ 0#4 : BitVec 16) from rfl, BitVec.and_append,
    BitVec.and_append, BitVec.and_append]
  simp [nibble_and_ones]

/-- The bits an instruction depends on hold those that give its row. -/
theorem matches_of_same_care {i : Instr} {w w' : Half} (h : w &&& i.careMask = w' &&& i.careMask)
    (hw : i.row.Matches w) : i.row.Matches w' := by
  have hmask : i.careMask &&& i.row.mask = i.row.mask := by
    cases i with
    | cls | ret => exact BitVec.and_self
    | seReg | sneReg => exact (by decide : (0xFFF0 : Half) &&& 0xF000 = 0xF000)
    | _ => exact BitVec.allOnes_and
  have hrow : w &&& i.row.mask = w' &&& i.row.mask := by
    rw [← hmask, ← BitVec.and_assoc, h, BitVec.and_assoc]
  exact hrow.symm.trans hw

/-- Encoding the fields of a word of a row gives the word with its don't-care bits 0. -/
theorem encode_withFields {i : Instr} {w : Half} (h : i.row.Matches w) :
    encode (i.withFields w) = w &&& i.careMask := by
  have group := fieldA_of_matches h
  have ones : w &&& 0xFFFF = w := BitVec.and_allOnes
  cases i with
  | cls | ret => exact h.symm
  | seReg | sneReg => exact wordXYN_clear_lowNibble (by simp [group, Instr.row])
  | jp | call | ldI | jpV0 => exact (wordA_of_group (by simp [group, Instr.row])).trans ones.symm
  | seByte | sneByte | ldByte | addByte | rnd =>
    exact (wordXK_of_group (by simp [group, Instr.row])).trans ones.symm
  | skp | sknp | ldVxDT | ldVxK | ldDT | ldST | addI | ldF | ldB | storeRegs | loadRegs =>
    have low := fieldKK_of_matches h rfl
    exact (wordXK_of_lowByte (by simp [group, Instr.row]) (by simp [low, Instr.row])).trans ones.symm
  | ldReg | orReg | andReg | xorReg | addReg | sub | shr | subn | shl =>
    have low := fieldN_of_matches h rfl
    exact (wordXYN_of_lowNibble (by simp [group, Instr.row]) (by simp [low, Instr.row])).trans ones.symm
  | drw =>
    have low : fieldN w = (BitVec.ofNat 4 (fieldN w)).toNat := by simp [fieldN]
    exact (wordXYN_of_lowNibble (by simp [group, Instr.row]) low).trans ones.symm

/-- The word the encoder gives an instruction is a word of the instruction's row (R82). -/
theorem encode_matches : ∀ i : Instr, i.row.Matches (encode i)
  | .cls => EncodingMatchesItsRow.cls
  | .ret => EncodingMatchesItsRow.ret
  | .jp nnn => EncodingMatchesItsRow.jp nnn
  | .call nnn => EncodingMatchesItsRow.call nnn
  | .seByte x kk => EncodingMatchesItsRow.seByte x kk
  | .sneByte x kk => EncodingMatchesItsRow.sneByte x kk
  | .seReg x y => EncodingMatchesItsRow.seReg x y
  | .ldByte x kk => EncodingMatchesItsRow.ldByte x kk
  | .addByte x kk => EncodingMatchesItsRow.addByte x kk
  | .ldReg x y => EncodingMatchesItsRow.ldReg x y
  | .orReg x y => EncodingMatchesItsRow.orReg x y
  | .andReg x y => EncodingMatchesItsRow.andReg x y
  | .xorReg x y => EncodingMatchesItsRow.xorReg x y
  | .addReg x y => EncodingMatchesItsRow.addReg x y
  | .sub x y => EncodingMatchesItsRow.sub x y
  | .shr x y => EncodingMatchesItsRow.shr x y
  | .subn x y => EncodingMatchesItsRow.subn x y
  | .shl x y => EncodingMatchesItsRow.shl x y
  | .sneReg x y => EncodingMatchesItsRow.sneReg x y
  | .ldI nnn => EncodingMatchesItsRow.ldI nnn
  | .jpV0 nnn => EncodingMatchesItsRow.jpV0 nnn
  | .rnd x kk => EncodingMatchesItsRow.rnd x kk
  | .drw x y n => EncodingMatchesItsRow.drw x y n
  | .skp x => EncodingMatchesItsRow.skp x
  | .sknp x => EncodingMatchesItsRow.sknp x
  | .ldVxDT x => EncodingMatchesItsRow.ldVxDT x
  | .ldVxK x => EncodingMatchesItsRow.ldVxK x
  | .ldDT x => EncodingMatchesItsRow.ldDT x
  | .ldST x => EncodingMatchesItsRow.ldST x
  | .addI x => EncodingMatchesItsRow.addI x
  | .ldF x => EncodingMatchesItsRow.ldF x
  | .ldB x => EncodingMatchesItsRow.ldB x
  | .storeRegs x => EncodingMatchesItsRow.storeRegs x
  | .loadRegs x => EncodingMatchesItsRow.loadRegs x

theorem decodeWord_encode {i : Instr} (h : i.WellFormed) : decodeWord (encode i) = .insn i :=
  (decodeWord_of_matches (encode_matches i)).trans (congrArg _ (withFields_encode h))

theorem encode_injective {i j : Instr} (hi : i.WellFormed) (hj : j.WellFormed) (h : encode i = encode j) : i = j :=
  Decoded.insn.inj ((decodeWord_encode hi).symm.trans (h ▸ decodeWord_encode hj))

end Sys2Proof

namespace Sys2Proof.Proofs

open Laws

/-- Settles O3: an instruction's word matches the instruction's row, and its fields are the operands. -/
theorem decodeOfEncode : Obligations.DecodeOfEncode := by
  intro i rest hi
  have hw := decodeWord_encode hi
  refine ⟨hw, ?_⟩
  rw [encodeBytes, bytesOfWord, List.cons_append, List.cons_append, decodeBytes, wordOfBytes_bytesOfWord, hw]
  rfl

/-- Settles O4: a word that matches a row decodes to an instruction of that row, so to match two rows it would have to
decode to two instructions. -/
theorem decoderFollowsTheOpcodeMap : Obligations.DecoderFollowsTheOpcodeMap := by
  refine ⟨fun w i h => ?_, fun w j h => ⟨_, decodeWord_of_matches h, j.withFields_row w⟩, fun w i j hi hj => ?_⟩
  · have own := decodeWord_insn h
    exact ⟨own.row, own.fields ▸ i.withFields_wellFormed w⟩
  · have hij : i.withFields w = j.withFields w :=
      Decoded.insn.inj ((decodeWord_of_matches hi).symm.trans (decodeWord_of_matches hj))
    rw [← i.withFields_row w, hij, j.withFields_row]

/-- Settles O5: a decoded word and any word that agrees with it on the bits its instruction depends on both match the
row, and their fields encode as the same word. -/
theorem dontCareBitsAreIgnored : Obligations.DontCareBitsAreIgnored := by
  intro w i h
  obtain ⟨hrow, hfields⟩ := decodeWord_insn h
  have hencode : encode i = w &&& i.careMask := by rw [← encode_withFields hrow, hfields]
  refine ⟨hencode, fun w' hagree => ?_⟩
  have hrow' := matches_of_same_care hagree.symm hrow
  have hsame : encode (i.withFields w') = encode i := by rw [encode_withFields hrow', hagree, hencode]
  have hinj := encode_injective (i.withFields_wellFormed w') (hfields ▸ i.withFields_wellFormed w) hsame
  rw [decodeWord_of_matches hrow', hinj]

/-- Settles O6, group by group. -/
theorem invalidWordsAreTheTwoClasses : Obligations.InvalidWordsAreTheTwoClasses := by
  intro w
  simp only [← fieldA_eq, ← fieldN_eq, ← fieldKK_toNat]
  rcases decodeWord_by_group w with ⟨hg, hd⟩ | ⟨hg, hd⟩ | ⟨hg, hd⟩ | ⟨hg, hd⟩ | ⟨hg, i, hd, -⟩
  · simp [hd, hg, decodeGroup0_fatal, decodeGroup0_ne_soft]
  · simp [hd, hg, decodeGroup8_soft, decodeGroup8_ne_fatal]
  · simp [hd, hg, decodeGroupE_soft, decodeGroupE_ne_fatal]
  · simp [hd, hg, decodeGroupF_fatal, decodeGroupF_ne_soft]
  · simp_all

/-- Settles O1, by running the decoder on the eight words. -/
theorem writtenOutWordsDecode : Obligations.WrittenOutWordsDecode := by
  unfold Obligations.WrittenOutWordsDecode
  decide

/-- Settles O2, field by field. -/
theorem fieldsAreUnsignedNumbers : Obligations.FieldsAreUnsignedNumbers :=
  fun w => ⟨fieldA_eq w, fieldX_val w, fieldY_val w, fieldN_eq w, fieldKK_toNat w,
    fieldNNN_toNat w, (Machine.addressOf_toNat _).trans (fieldNNN_toNat w)⟩

end Sys2Proof.Proofs
end

section
/-! PROOF. The family 30_encoding, the step: what it does and reports at a word, by what the word decodes to. -/

namespace Sys2Proof.Machine

variable {s t : State} {w : Half} {i : Instr}

/-! ## The instructions that look at the stack or the keys, case by case -/

theorem exec_ret_used (h : 0 < s.SP.val) : exec .ret s = .next (s.pop.retire (returnTarget (s.top h))) := dif_pos h

theorem exec_ret_empty (h : ¬ 0 < s.SP.val) : exec .ret s = .next (s.halt (.stackUnderflow s.pc)) := dif_neg h

theorem exec_call_room (nnn : BitVec 12) (h : s.SP.val < 16) :
    exec (.call nnn) s = .next ((s.push s.pc h).retire (addressOf nnn)) := dif_pos h

theorem exec_call_full (nnn : BitVec 12) (h : ¬ s.SP.val < 16) :
    exec (.call nnn) s = .next (s.halt (.stackOverflow s.pc)) := dif_neg h

theorem exec_ldVxK_pressed (x : Reg) {k : Fin 16} (h : s.lowestKey = some k) :
    exec (.ldVxK x) s = .next ((s.setReg x (BitVec.ofNat 8 k.val)).retire (s.pc + 2)) := by
  simp [exec, execLdVxK, h, advance_eq]

theorem exec_ldVxK_none (x : Reg) (h : s.lowestKey = none) : exec (.ldVxK x) s = .next s := by
  simp [exec, execLdVxK, h, block_eq]

/-! ## The record of steps has no effect on an instruction (log 26) -/

/-- An answer with the record that a step was taken. -/
def recorded : Answer → Answer
  | .next t => .next t.stepped
  | .fault f => .fault f
  | .refused r => .refused r

theorem withRange_stepped (kind : AccessKind) (count : Nat) (s : State) (rest : Answer) :
    withRange kind count s.stepped (recorded rest) = recorded (withRange kind count s rest) := by
  unfold withRange
  rw [State.stepped_I]
  split <;> rfl

theorem skipIfKey_stepped (want : Bool) (v : Byte) (s : State) :
    skipIfKey want v s.stepped = recorded (skipIfKey want v s) := by
  unfold skipIfKey
  split <;> rfl

theorem resolveAlias_stepped (aliased : Bool) (x : Reg) (u s : State) :
    resolveAlias aliased x u.stepped s.stepped = (resolveAlias aliased x u s).stepped := by
  unfold resolveAlias aliasDraws
  rw [State.stepped_params]
  split
  · rfl
  · split
    · split <;> rfl
    · rfl

theorem subSwapping_stepped (x y : Reg) (s : State) : subSwapping x y s.stepped = (subSwapping x y s).stepped := by
  unfold subSwapping
  rw [State.stepped_reg, State.stepped_reg]
  split <;> rfl

theorem drawAt_stepped (x y : Reg) (n : Nat) (s : State) : drawAt x y n s.stepped = (drawAt x y n s).stepped := by
  unfold drawAt
  rw [State.stepped_params]
  split
  · rfl
  · split <;> rfl

/-- What an instruction does depends on no record, and it leaves the record as it is. -/
theorem exec_stepped (i : Instr) (s : State) : exec i s.stepped = recorded (exec i s) := by
  cases i with
  | ret =>
    by_cases h : 0 < s.SP.val
    · rw [exec_ret_used h, exec_ret_used (s := s.stepped) h]
      rfl
    · rw [exec_ret_empty h, exec_ret_empty (s := s.stepped) h]
      rfl
  | call nnn =>
    by_cases h : s.SP.val < 16
    · rw [exec_call_room nnn h, exec_call_room (s := s.stepped) nnn h]
      rfl
    · rw [exec_call_full nnn h, exec_call_full (s := s.stepped) nnn h]
      rfl
  | addReg x y => exact congrArg advance (resolveAlias_stepped (aliased2 x y) x (addWithCarry x y s) s)
  | sub x y =>
    have hseq := subSwapping_stepped x y s
    exact congrArg advance (hseq ▸ resolveAlias_stepped (aliased2 x y) x (subSwapping x y s) s)
  | shr x y => exact congrArg advance (resolveAlias_stepped (aliased1 x) x (shiftRight x s) s)
  | subn x y => exact congrArg advance (resolveAlias_stepped (aliased2 x y) x (reverseSub x y s) s)
  | shl x y => exact congrArg advance (resolveAlias_stepped (aliased1 x) x (shiftLeft x s) s)
  | drw x y n =>
    have hdraw := congrArg advance (drawAt_stepped x y n s)
    exact (congrArg (withRange .read n s.stepped) hdraw).trans (withRange_stepped .read n s (advance (drawAt x y n s)))
  | skp x => exact skipIfKey_stepped true (s.reg x) s
  | sknp x => exact skipIfKey_stepped false (s.reg x) s
  | ldVxK x =>
    cases h : s.lowestKey with
    | some k =>
      rw [exec_ldVxK_pressed x h, exec_ldVxK_pressed (s := s.stepped) x h]
      rfl
    | none =>
      rw [exec_ldVxK_none x h, exec_ldVxK_none (s := s.stepped) x h]
      rfl
  | ldB x => exact withRange_stepped .write 3 s (advance (s.storeBytes s.I.toNat (decimalDigits (s.reg x))))
  | storeRegs x =>
    exact withRange_stepped .write (x.val + 1) s (advance (s.storeBytes s.I.toNat (s.regsThrough x)))
  | loadRegs x => exact withRange_stepped .read (x.val + 1) s (advance (s.setRegsThrough x s.bytesAtI))
  | _ => rfl

/-! ## The tick and the next pc of an instruction (R74, R75) -/

/-- `Fx0A` with no key pressed leaves the state as it is (R185). -/
theorem exec_of_blocks (h : blocks i s = true) : exec i s = .next s := by
  cases i with
  | ldVxK x => exact exec_ldVxK_none x (Option.isNone_iff_eq_none.mp h)
  | _ => cases h

/-- `Fx0A` that does not wait finds a key. -/
theorem exists_lowestKey {x : Reg} (h : blocks (.ldVxK x) s = false) : ∃ k, s.lowestKey = some k :=
  Option.isSome_iff_exists.mp (Option.isNone_eq_false_iff.mp h)

/-- An instruction leaves the core running as it was, or halts it, and then the status alone changes (R201). -/
theorem Ends.status_or_halt (h : Ends s i t) : t.status = s.status ∨ ∃ f, t = s.halt f := by
  cases h with
  | fault f => exact .inr ⟨f, rfl⟩
  | registers w => exact .inl w.status
  | screen _ w => exact .inl w.status
  | _ => exact .inl rfl

/-- The delay timer ticks, but for a fault, the wait of `Fx0A` and the write of `Fx15`. -/
theorem Ends.ticked (h : Ends s i t) (hrun : t.status = .running) :
    t.DT = State.tickDown s.DT ∨ (∃ x, i = .ldVxK x) ∨ ∃ x, i = .ldDT x := by
  cases h with
  | fault => cases hrun
  | wait x => exact .inr (.inl ⟨x, rfl⟩)
  | registers w => exact .inl (congrArg State.tickDown w.DT)
  | screen _ w => exact .inl (congrArg State.tickDown w.DT)
  | delay x => exact .inr (.inr ⟨x, rfl⟩)
  | _ => exact .inl rfl

/-- The value the tick at the end of instruction `i` runs on (R75, R186). -/
def tickedValue (i : Instr) (s : State) : Byte :=
  match i with
  | .ldDT x => s.reg x
  | _ => s.DT

theorem ends_of_exec (h : exec i s = .next t) : Ends s i t := by
  obtain ⟨t', ht', ends⟩ := exec_ends i s
  obtain rfl : t' = t := Host.Outcome.next.inj (ht'.symm.trans h)
  exact ends

theorem exec_DT (h : exec i s = .next t) (hrun : t.status = .running) (hb : blocks i s = false) :
    t.DT.toNat = (tickedValue i s).toNat - 1 := by
  cases i with
  | ldVxK x =>
    obtain ⟨k, hk⟩ := exists_lowestKey hb
    cases (exec_ldVxK_pressed x hk).symm.trans h
    exact State.tickDown_toNat s.DT
  | ldDT x =>
    cases h
    exact State.tickDown_toNat (s.reg x)
  | _ =>
    have htick := ((ends_of_exec h).ticked hrun).resolve_right (by simp)
    exact (congrArg BitVec.toNat htick).trans (State.tickDown_toNat s.DT)

theorem skipTarget_toNat {pc : Half} (hpc : pc.toNat ≤ 4094) (c : Bool) :
    (skipTarget pc c).toNat = pc.toNat + if c then 4 else 2 := by
  cases c with
  | true =>
    show (pc + 4).toNat = pc.toNat + 4
    bv_omega
  | false =>
    show (pc + 2).toNat = pc.toNat + 2
    bv_omega

theorem advance_pc {u : State} (hpc : s.pc.toNat ≤ 4094) (h : advance u = .next t) (hu : u.pc = s.pc) :
    t.pc.toNat = s.pc.toNat + 2 := by
  cases h
  rw [State.retire_pc, hu]
  exact skipTarget_toNat hpc false

theorem skipIf_pc {c d : Bool} (hpc : s.pc.toNat ≤ 4094) (hc : c = d) (h : skipIf c s = .next t) :
    t.pc.toNat = s.pc.toNat + if d then 4 else 2 := by
  cases h
  exact hc ▸ skipTarget_toNat hpc c

/-- An access that leaves the core running was within memory. -/
theorem eq_of_withRange {kind : AccessKind} {count : Nat} {rest : Answer} (h : withRange kind count s rest = .next t)
    (hrun : t.status = .running) : rest = .next t := by
  rcases withRange_cases kind count s rest with he | he
  · exact he.symm.trans h
  · cases he.symm.trans h
    cases hrun

/-- A key test that leaves the core running was on one of the sixteen keys. -/
theorem skipIfKey_pc {want : Bool} {v : Byte} (hpc : s.pc.toNat ≤ 4094) (h : skipIfKey want v s = .next t)
    (hrun : t.status = .running) :
    t.pc.toNat = s.pc.toNat + if s.key.toList.getD v.toNat false == want then 4 else 2 := by
  by_cases hv : v.toNat < 16
  · have hkey : s.key.toList.getD v.toNat false = s.keyDown? ⟨v.toNat, hv⟩ := by simp [State.keyDown?, hv]
    rw [skipIfKey_ok s hv] at h
    cases h
    rw [hkey]
    exact skipTarget_toNat hpc _
  · rw [skipIfKey_bad s (by omega)] at h
    cases h
    cases hrun

theorem top_toNat (h : 0 < s.SP.val) : s.top h = s.stack.toList.getD (s.SP.val - 1) 0 := by
  have hlt : s.SP.val - 1 < 16 := by omega
  simp [State.top, hlt]

/-- R74: an executed instruction leaves the pc its rule names, as a true integer. -/
theorem exec_pc (hpc : s.pc.toNat ≤ 4094) (hstack : ∀ j : Fin 16, s.stack[j].toNat ≤ 4094) (h : exec i s = .next t)
    (hrun : t.status = .running) (hb : blocks i s = false) : t.pc.toNat = integerNextPc i s := by
  cases i with
  | jp nnn =>
    cases h
    exact addressOf_toNat nnn
  | jpV0 nnn =>
    cases h
    exact indexedTarget_toNat nnn (s.reg 0)
  | call nnn =>
    by_cases hroom : s.SP.val < 16
    · cases (exec_call_room nnn hroom).symm.trans h
      exact addressOf_toNat nnn
    · cases (exec_call_full nnn hroom).symm.trans h
      cases hrun
  | ret =>
    by_cases hused : 0 < s.SP.val
    · have htop : (s.top hused).toNat ≤ 4094 := hstack ⟨s.SP.val - 1, by omega⟩
      cases (exec_ret_used hused).symm.trans h
      show (s.top hused + 2).toNat = _
      rw [integerNextPc, ← top_toNat hused]
      bv_omega
    · cases (exec_ret_empty hused).symm.trans h
      cases hrun
  | seByte x kk => exact skipIf_pc hpc rfl h
  | sneByte x kk => exact skipIf_pc hpc (by rw [decide_not]; rfl) h
  | seReg x y => exact skipIf_pc hpc rfl h
  | sneReg x y => exact skipIf_pc hpc (by rw [decide_not]; rfl) h
  | skp x => simpa [integerNextPc] using skipIfKey_pc hpc h hrun
  | sknp x => simpa [integerNextPc] using skipIfKey_pc hpc h hrun
  | ldVxK x =>
    obtain ⟨k, hk⟩ := exists_lowestKey hb
    cases (exec_ldVxK_pressed x hk).symm.trans h
    exact skipTarget_toNat hpc false
  | addReg x y =>
    exact advance_pc hpc h ((((WritesRegisters.refl s).setReg x _).setReg VF _).resolveAlias _ x).pc
  | sub x y => exact advance_pc hpc h ((WritesRegisters.subSwapping s x y).resolveAlias _ x).pc
  | shr | subn | shl => exact advance_pc hpc h ((WritesRegisters.flagThenReg s _ _ _).resolveAlias _ _).pc
  | drw x y n =>
    obtain ⟨d, writes⟩ := drawAt_writes x y n s
    exact advance_pc hpc (eq_of_withRange h hrun) writes.pc
  | ldB | storeRegs => exact advance_pc hpc (eq_of_withRange h hrun) rfl
  | loadRegs x => exact advance_pc hpc (eq_of_withRange h hrun) (WritesRegisters.setRegsThrough s x _).pc
  | cls | ldByte | addByte | ldReg | orReg | andReg | xorReg | ldI | rnd | ldVxDT | ldDT | ldST | addI | ldF =>
    exact advance_pc hpc h rfl

theorem integerNextPc_stepped (i : Instr) (s : State) : integerNextPc i s.stepped = integerNextPc i s := by
  cases i <;> rfl

/-! ## The step at a word (R70, R77) -/

theorem State.AtWord.unique {w' : Half} (h : s.AtWord w) (h' : s.AtWord w') : w = w' := by
  obtain ⟨-, -, rfl⟩ := h
  obtain ⟨-, -, rfl⟩ := h'
  rfl

theorem step_at (h : s.AtWord w) : step s = runWord exec w s.stepped := by
  obtain ⟨hs, hp, rfl⟩ := h
  exact step_fetched hs (by omega)

theorem stepOutcome_at (h : s.AtWord w) : stepOutcome s = wordOutcome w s (runWord exec w s) := by
  obtain ⟨hs, hp, rfl⟩ := h
  exact stepOutcome_fetched hs (by omega)

theorem stepOutcome_halted {f : Fault} (h : s.status = .halted f) : stepOutcome s = .halted f := by
  simp [stepOutcome, outcomeOf, h]

theorem runWord_fatal (execute : Instr → State → Answer) (s : State) (hd : decodeWord w = .fatalInvalid) :
    runWord execute w s = .next (s.halt (.invalidOpcode w s.pc)) := by
  simp [runWord, hd, fatalInvalidAction, raise_eq]

theorem runWord_soft_unified (execute : Instr → State → Answer) (hd : decodeWord w = .softInvalid)
    (hp : s.params.invalidPolicy = .unified) : runWord execute w s = .next (s.halt (.invalidOpcode w s.pc)) := by
  simp [runWord, hd, softInvalidAction, hp, raise_eq]

theorem runWord_soft_original (execute : Instr → State → Answer) (hd : decodeWord w = .softInvalid)
    (hp : s.params.invalidPolicy = .original) : runWord execute w s = .next (s.retire s.pc) := by
  simp [runWord, hd, softInvalidAction, hp, complete_eq]

/-- R85. -/
theorem step_fatal (h : s.AtWord w) (hd : decodeWord w = .fatalInvalid) :
    step s = .next (s.stepped.halt (.invalidOpcode w s.pc)) ∧ stepOutcome s = .halted (.invalidOpcode w s.pc) := by
  rw [step_at h, stepOutcome_at h, runWord_fatal exec s.stepped hd, runWord_fatal exec s hd]
  exact ⟨rfl, wordOutcome_halted w s rfl⟩

/-- R86. -/
theorem step_soft_unified (h : s.AtWord w) (hd : decodeWord w = .softInvalid)
    (hp : s.params.invalidPolicy = .unified) :
    step s = .next (s.stepped.halt (.invalidOpcode w s.pc)) ∧ stepOutcome s = .halted (.invalidOpcode w s.pc) := by
  rw [step_at h, stepOutcome_at h, runWord_soft_unified (s := s.stepped) exec hd hp, runWord_soft_unified exec hd hp]
  exact ⟨rfl, wordOutcome_halted w s rfl⟩

/-- R84. -/
theorem step_stalled (h : s.StalledAt w) :
    step s = .next (s.stepped.retire s.pc) ∧ stepOutcome s = .stalled w s.pc := by
  obtain ⟨hat, hd, hp⟩ := h
  have ⟨hs, _, _⟩ := hat
  rw [step_at hat, stepOutcome_at hat, runWord_soft_original (s := s.stepped) exec hd hp,
    runWord_soft_original exec hd hp]
  exact ⟨rfl, by simp [wordOutcome, hs, hd]⟩

/-- A stall leads to the same stall (R84). -/
theorem State.StalledAt.next (h : s.StalledAt w) : (s.stepped.retire s.pc).StalledAt w := h

/-- At the word of an instruction, a step halts and changes the status alone, or it is the instruction's own answer,
with the core still running. -/
theorem step_insn_cases (h : s.AtWord w) (hd : decodeWord w = .insn i) :
    (∃ f, step s = .next (s.stepped.halt f) ∧ stepOutcome s = .halted f) ∨
    ∃ t, step s = .next t ∧ exec i s.stepped = .next t ∧ t.status = .running ∧
      stepOutcome s = if blocks i s then .blocked else .executed := by
  have ⟨hs, _, _⟩ := h
  rw [step_at h, stepOutcome_at h]
  cases hr : unwrittenRead i s with
  | some r =>
    rw [runWord_unwritten (s := s.stepped) hd hr, runWord_unwritten hd hr]
    exact .inl ⟨_, rfl, wordOutcome_halted w s rfl⟩
  | none =>
    obtain ⟨u, hu, ends⟩ := exec_ends i s
    have hstepped : exec i s.stepped = .next u.stepped := (exec_stepped i s).trans (congrArg recorded hu)
    rw [runWord_insn (s := s.stepped) hd hr, runWord_insn hd hr, hstepped, hu]
    rcases ends.status_or_halt with hrun | ⟨f, rfl⟩
    · exact .inr ⟨_, rfl, rfl, hrun.trans hs, wordOutcome_running s hd (hrun.trans hs)⟩
    · exact .inl ⟨f, rfl, wordOutcome_halted w s rfl⟩

/-- At an instruction's word the core waits for a key exactly where the instruction blocks (R185). -/
theorem waitingForKey_iff (h : s.AtWord w) (hd : decodeWord w = .insn i) :
    s.WaitingForKey ↔ blocks i s = true := by
  constructor
  · rintro ⟨⟨w', x, h', hd'⟩, hkeys⟩
    obtain rfl := h.unique h'
    obtain rfl : i = .ldVxK x := Decoded.insn.inj (hd.symm.trans hd')
    exact Option.isNone_iff_eq_none.mpr (s.lowestKey_eq_none.mpr hkeys)
  · intro hb
    cases i with
    | ldVxK x => exact ⟨⟨w, x, h, hd⟩, s.lowestKey_eq_none.mp (Option.isNone_iff_eq_none.mp hb)⟩
    | _ => cases hb

/-- A step that does not halt at an instruction's word is the instruction. -/
theorem exec_of_step (h : s.AtWord w) (hd : decodeWord w = .insn i) (hstep : step s = .next t)
    (hhalt : ∀ f, stepOutcome s ≠ .halted f) :
    exec i s.stepped = .next t ∧ t.status = .running ∧
      stepOutcome s = if blocks i s then .blocked else .executed := by
  rcases step_insn_cases h hd with ⟨f, -, ho⟩ | ⟨t', ht', hrest⟩
  · exact absurd ho (hhalt f)
  · obtain rfl : t' = t := Host.Outcome.next.inj (ht'.symm.trans hstep)
    exact hrest

theorem runSteps_succ (k : Nat) (h : step s = .next t) : runSteps (k + 1) s = runSteps k t := by
  simp [runSteps, h]

end Sys2Proof.Machine

namespace Sys2Proof.Proofs

open Machine

/-- Settles O12, from what a step does and reports at an invalid word of each class. -/
theorem invalidWordsHaltOrStall : Obligations.InvalidWordsHaltOrStall := by
  intro s w h
  refine ⟨step_fatal h, step_soft_unified h, fun hd hp => ?_⟩
  obtain ⟨hstep, ho⟩ := step_stalled ⟨h, hd, hp⟩
  exact ⟨_, hstep, State.tickDown_toNat s.DT, rfl, ho⟩

/-- Settles O14: the fetch faults, or the word it finds is an instruction, which halts, blocks or is executed, or it is
invalid, which stalls or halts. -/
theorem stepEndsInOneOfFourOutcomes : Obligations.StepEndsInOneOfFourOutcomes := by
  intro s hs
  rcases Nat.lt_or_ge 4095 (s.pc.toNat + 1) with hp | hp
  · refine ⟨_, step_fetch_fault hs hp, ?_⟩
    rw [stepOutcome_fetch_fault hs hp]
    rfl
  have h : s.AtWord (fetchWord s) := ⟨hs, by omega, rfl⟩
  cases hd : decodeWord (fetchWord s) with
  | insn i =>
    rcases step_insn_cases h hd with ⟨f, hstep, ho⟩ | ⟨t, hstep, hexec, hrun, ho⟩
    · refine ⟨_, hstep, ?_⟩
      rw [ho]
      rfl
    · refine ⟨t, hstep, ?_⟩
      cases hb : blocks i s with
      | true =>
        rw [ho, hb]
        have ht : t = s.stepped := Host.Outcome.next.inj (hexec.symm.trans (exec_of_blocks (s := s.stepped) hb))
        exact ⟨(waitingForKey_iff h hd).mpr hb, ht⟩
      | false =>
        rw [ho, hb]
        refine ⟨_, i, h, hd, hexec, hrun, fun hw => ?_, exec_DT (s := s.stepped) hexec hrun hb⟩
        exact Bool.noConfusion (hb.symm.trans ((waitingForKey_iff h hd).mp hw))
  | softInvalid =>
    cases hp : s.params.invalidPolicy with
    | original =>
      obtain ⟨hstep, ho⟩ := step_stalled ⟨h, hd, hp⟩
      refine ⟨_, hstep, ?_⟩
      rw [ho]
      exact ⟨⟨h, hd, hp⟩, rfl, State.tickDown_toNat s.DT, rfl⟩
    | unified =>
      obtain ⟨hstep, ho⟩ := step_soft_unified h hd hp
      refine ⟨_, hstep, ?_⟩
      rw [ho]
      rfl
  | fatalInvalid =>
    obtain ⟨hstep, ho⟩ := step_fatal h hd
    refine ⟨_, hstep, ?_⟩
    rw [ho]
    rfl

/-- Settles O17, from the four outcomes; `Fx15` and `Fx07` are executed where their step does not fault. -/
theorem delayTimerTicksOncePerStep : Obligations.DelayTimerTicksOncePerStep := by
  intro s t hs hstep
  obtain ⟨t', hstep', hout⟩ := stepEndsInOneOfFourOutcomes s hs
  obtain rfl : t = t' := Host.Outcome.next.inj (hstep.symm.trans hstep')
  refine ⟨fun w x h hd hhalt => ?_, fun w x h hd hhalt => ?_, fun ho => ?_, fun f ho => ?_, fun hne hblock hhalt => ?_⟩
  · obtain ⟨hexec, -, -⟩ := exec_of_step h hd hstep hhalt
    cases hexec
    exact State.tickDown_toNat (s.reg x)
  · obtain ⟨hexec, -, -⟩ := exec_of_step h hd hstep hhalt
    cases hexec
    exact State.setReg_reg_self s.stepped x s.DT
  · rw [ho] at hout
    obtain ⟨-, rfl⟩ := hout
    rfl
  · rw [ho] at hout
    have ht : t = s.stepped.halt f := hout
    rw [ht, State.halt_DT, State.stepped_DT]
  · cases ho : stepOutcome s with
    | executed =>
      rw [ho] at hout
      obtain ⟨w, i, h, hd, -, -, -, hDT⟩ := hout
      cases i with
      | ldDT x => exact absurd hd (hne w x h)
      | _ => exact hDT
    | blocked => exact absurd ho hblock
    | stalled w p =>
      rw [ho] at hout
      obtain ⟨-, -, hDT, -⟩ := hout
      exact hDT
    | halted f => exact absurd ho (hhalt f)

/-- Settles O20: the next pc of each rule, below the bound that every end of an instruction keeps. -/
theorem programCounterNeverWraps : Obligations.ProgramCounterNeverWraps := by
  intro s t w i hinv h hd hstep ho
  obtain ⟨-, -, hstack, -, -⟩ := hinv
  have ⟨_, hpc, _⟩ := h
  obtain ⟨hexec, hrun, houtcome⟩ := exec_of_step h hd hstep (by simp [ho])
  have hb : blocks i s = false := by simpa [ho] using houtcome
  have hnext : t.pc.toNat = integerNextPc i s :=
    (exec_pc (s := s.stepped) hpc hstack hexec hrun hb).trans (integerNextPc_stepped i s)
  exact ⟨hnext, hnext ▸ (ends_of_exec hexec).pc_le hpc hstack⟩

/-- Settles O50, by induction on the number of steps: a stall leads to the same stall, one tick later. -/
theorem stallNeverEnds : Obligations.StallNeverEnds := by
  intro s w k
  induction k generalizing s with
  | zero => exact fun h => ⟨s, rfl, h, rfl, rfl, (step_stalled h).2⟩
  | succ k ih =>
    intro h
    obtain ⟨t, hrun, hstall, hDT, ht, ho⟩ := ih _ h.next
    refine ⟨t, (runSteps_succ k (step_stalled h).1).trans hrun, hstall, ?_, ?_, ho⟩
    · rw [hDT, State.retire_DT, State.tickDown_toNat, State.stepped_DT]
      omega
    · exact ht.trans (by cases k <;> rfl)

/-- Settles O10: no register the instruction reads is without a value, so the word is run. -/
theorem stepRunsTheDecodedInstruction : Obligations.StepRunsTheDecodedInstruction := by
  intro s w i h hd hheld
  have hr : unwrittenRead i s = none := unwrittenRead_none.mpr fun r hr => hheld r (mem_registersRead.mp hr)
  exact (step_at h).trans (runWord_insn hd hr)

/-- Settles O11: the word's two bytes, or the fault of the fetch. -/
theorem fetchIsBigEndianOrFaults : Obligations.FetchIsBigEndianOrFaults := by
  intro s hs
  refine ⟨fun hp => ⟨step_fetched hs hp, Laws.wordOfBytes_toNat _ _⟩, fun hp => ?_⟩
  have hbad : max s.pc.toNat 4096 = if s.pc = 4095 then 4096 else s.pc.toNat := by
    split
    · next h => simp [h]
    · next h =>
      have : s.pc.toNat ≠ 4095 := fun h' => h (BitVec.eq_of_toNat_eq h')
      omega
  rw [step_fetch_fault hs hp, hbad]
  rfl

/-- Settles O13, by induction on the number of steps. -/
theorem haltedCoreStaysHalted : Obligations.HaltedCoreStaysHalted := by
  intro s f k hs
  refine ⟨?_, stepOutcome_halted hs⟩
  induction k with
  | zero => rfl
  | succ k ih => exact (runSteps_succ k (step_halted hs)).trans ih

end Sys2Proof.Proofs
end

section
/-! PROOF. The family 40_control_flow: jumps, calls, returns and skips, and the idle loop. -/

namespace Sys2Proof

open Machine Laws

/-! ## The words of an instruction's row (R82) -/

/-- The words of an instruction's row are those that decode to the instruction with the word's own fields. -/
theorem encodedAs_row (j : Instr) {i : Half → Instr} (hi : ∀ w, j.withFields w = i w) :
    EncodedAs j.row.mask j.row.pattern i := by
  intro w
  rw [← hi w]
  constructor
  · exact decodeWord_of_matches
  · exact fun hd => j.withFields_row w ▸ (decodeWord_insn hd).row

/-! ## Frames and the end of an executed instruction (R15, R74, R75) -/

variable {s u : State} {i : Instr} {c : Touched} {p : Half}

/-- A state frames itself wherever no register is named as written. -/
theorem Frame.refl (hc : ∀ r, c.writes r = false) (s : State) : Frame c s s :=
  ⟨fun _ _ => rfl, fun _ => rfl, fun _ => ⟨rfl, fun _ => rfl⟩, fun _ => rfl, fun _ => ⟨rfl, fun _ _ => rfl⟩,
    fun _ => rfl, fun _ _ => rfl, fun _ => rfl, rfl, rfl, rfl, fun r => by rw [hc r, Bool.not_false, Bool.and_true]⟩

/-- The frame of an instruction that writes the pc alone. -/
theorem Frame.untouched (s : State) : Frame {} s s := .refl (fun r => by cases r <;> rfl) s

/-- The frame of an instruction that writes the stack alone. -/
theorem Frame.onStack (s : State) : Frame { stack := true } s s := .refl (fun r => by cases r <;> rfl) s

/-- The pc and the tick are outside every frame. -/
theorem Frame.retire (h : Frame c s u) (p : Half) : Frame c s (u.retire p) := h

/-- A frame that names the stack allows any stack and stack pointer. -/
theorem Frame.withStack (h : Frame c s u) (hc : c.stack = true) (slots : Vector Half 16) (sp : Fin 17) :
    Frame c s { u with stack := slots, SP := sp } := by
  obtain ⟨regs, index, -, rest⟩ := h
  exact ⟨regs, index, fun hkept => Bool.noConfusion (hkept.symm.trans hc), rest⟩

theorem Frame.push (h : Frame c s u) (hc : c.stack = true) (a : Half) (room : u.SP.val < 16) :
    Frame c s (u.push a room) := h.withStack hc _ _

theorem Frame.pop (h : Frame c s u) (hc : c.stack = true) : Frame c s u.pop := h.withStack hc _ _

/-- An instruction that ends its step at `p` executes within the frame of what it did before. -/
theorem executes_of_retire {d : Byte} (hexec : exec i s = .next (u.retire p)) (hDT : u.DT = d) (hframe : Frame c s u) :
    Executes i s (u.retire p) p d c :=
  ⟨hexec, rfl, hDT ▸ State.tickDown_toNat u.DT, hframe.retire p⟩

end Sys2Proof

namespace Sys2Proof.Machine

open Laws

variable {s : State} {i : Instr}

/-! ## Skips (R100) -/

theorem skipTarget_beq (pc : Half) (a b : Byte) : skipTarget pc (a == b) = if a = b then pc + 4 else pc + 2 := by
  simp [skipTarget]

theorem skipTarget_bne (pc : Half) (a b : Byte) : skipTarget pc (a != b) = if a = b then pc + 2 else pc + 4 := by
  simp [skipTarget]

/-- A skip sets the pc and changes nothing else. -/
theorem exists_executes_skip {cond : Bool} {p : Half} (hexec : exec i s = skipIf cond s)
    (hp : skipTarget s.pc cond = p) : ∃ t, Executes i s t p s.DT {} := by
  subst hp
  exact ⟨_, executes_of_retire hexec rfl (.untouched s)⟩

/-! ## Calls and returns (R101, R103) -/

/-- The address a return goes back to is the last one pushed. -/
theorem top_push (a : Half) (room : s.SP.val < 16) (used : 0 < (s.push a room).SP.val) :
    (s.push a room).top used = a := by
  simp [State.top]

theorem pop_push_SP (a : Half) (room : s.SP.val < 16) : (s.push a room).pop.SP = s.SP := rfl

/-! ## The idle loop (R254) -/

/-- The jump to its own address has the word 0x1000 + pc. -/
theorem encode_jp_own_address {pc : Half} (hpc : pc.toNat ≤ 4094) : encode (.jp (fieldNNN pc)) = 0x1000 + pc := by
  have hword : (encode (.jp (fieldNNN pc))).toNat = 1 * 4096 + (fieldNNN pc).toNat := wordA_toNat 0x1 (fieldNNN pc)
  apply BitVec.eq_of_toNat_eq
  rw [hword, fieldNNN_toNat]
  bv_omega

theorem addressOf_fieldNNN {pc : Half} (hpc : pc.toNat ≤ 4094) : addressOf (fieldNNN pc) = pc := by
  apply BitVec.eq_of_toNat_eq
  rw [addressOf_toNat, fieldNNN_toNat]
  omega

/-- A step of an idle core only ticks: the jump reads no register and leads to itself. -/
theorem step_idle (h : s.Idle) : step s = .next (s.stepped.retire s.pc) := by
  obtain ⟨hpc, hat⟩ := h
  have hd : decodeWord (0x1000 + s.pc) = .insn (.jp (fieldNNN s.pc)) := by
    rw [← encode_jp_own_address hpc]
    exact decodeWord_encode rfl
  calc step s = runWord exec (0x1000 + s.pc) s.stepped := step_at hat
    _ = exec (.jp (fieldNNN s.pc)) s.stepped := runWord_insn hd rfl
    _ = .next (s.stepped.retire (addressOf (fieldNNN s.pc))) := rfl
    _ = .next (s.stepped.retire s.pc) := by rw [addressOf_fieldNNN hpc]

theorem State.Idle.next (h : s.Idle) : (s.stepped.retire s.pc).Idle := h

end Sys2Proof.Machine

namespace Sys2Proof.Proofs

open Machine

/-- Settles O25: with room on the stack the call pushes the pc, else it halts. -/
theorem callPushesItsOwnAddress : Obligations.CallPushesItsOwnAddress := by
  refine ⟨encodedAs_row (.call 0) fun _ => rfl, fun nnn s => ⟨fun room => ?_, fun full => ?_⟩⟩
  · have hframe : Frame { stack := true } s (s.push s.pc room) := (Frame.onStack s).push rfl s.pc room
    refine ⟨_, executes_of_retire (exec_call_room nnn room) rfl hframe, rfl, fun j => ?_⟩
    simp [Vector.getElem_set, eq_comm]
  · exact exec_call_full nnn (by omega)

/-- Settles O26: with an address on the stack the return pops it, else it halts. -/
theorem returnPopsAndAddsTwo : Obligations.ReturnPopsAndAddsTwo := by
  refine ⟨encodedAs_row .ret fun _ => rfl, fun s => ⟨fun j hj => ?_, fun empty => ?_⟩⟩
  · have used : 0 < s.SP.val := by omega
    have htop : s.top used = s.stack[j] := by simp [State.top, hj]
    have hSP : s.pop.SP.val = j.val := by simp [hj]
    rw [← htop]
    exact ⟨_, executes_of_retire (exec_ret_used used) rfl ((Frame.onStack s).pop rfl), hSP, fun _ => rfl⟩
  · exact exec_ret_empty (by omega)

/-- Settles O27: the return pops the address the call has just pushed. -/
theorem returnUndoesCall : Obligations.ReturnUndoesCall := by
  intro nnn s room
  have used : 0 < (s.push s.pc room).SP.val := Nat.succ_pos _
  have hret := exec_ret_used (s := (s.push s.pc room).retire (addressOf nnn)) used
  refine ⟨_, _, exec_call_room nnn room, hret, ?_, pop_push_SP s.pc room, ?_, ?_⟩
  · exact congrArg returnTarget (top_push s.pc room used)
  · simp [State.tickDown_toNat, Nat.sub_sub]
  · exact (((Frame.onStack s).push rfl s.pc room).retire _).pop rfl

/-- Settles O49, by induction on the number of steps: an idle state leads to an idle state, one tick later. -/
theorem idleLoopOnlyTicks : Obligations.IdleLoopOnlyTicks := by
  intro s k
  induction k generalizing s with
  | zero => exact fun h => ⟨s, rfl, h, rfl, rfl⟩
  | succ k ih =>
    intro h
    obtain ⟨t, hrun, hidle, hDT, ht⟩ := ih _ h.next
    refine ⟨t, (runSteps_succ k (step_idle h)).trans hrun, hidle, ?_, ?_⟩
    · rw [hDT, State.retire_DT, State.tickDown_toNat, State.stepped_DT]
      omega
    · exact ht.trans (by cases k <;> rfl)

/-- Settles O24, by the values of the two targets. -/
theorem jumpsSetTheProgramCounter : Obligations.JumpsSetTheProgramCounter := by
  refine ⟨encodedAs_row (.jp 0) fun _ => rfl, encodedAs_row (.jpV0 0) fun _ => rfl, fun nnn s => ⟨?_, ?_⟩⟩
  · exact ⟨_, executes_of_retire rfl rfl (.untouched s), addressOf_toNat nnn⟩
  · exact ⟨_, executes_of_retire rfl rfl (.untouched s), indexedTarget_toNat nnn (s.reg 0)⟩

/-- Settles O28: skips on Vx = kk and on its complement. -/
theorem immediateSkips : Obligations.ImmediateSkips := by
  refine ⟨encodedAs_row (.seByte 0 0) fun _ => rfl, encodedAs_row (.sneByte 0 0) fun _ => rfl, fun x kk s => ⟨?_, ?_⟩⟩
  · exact exists_executes_skip rfl (skipTarget_beq s.pc (s.reg x) kk)
  · exact exists_executes_skip rfl (skipTarget_bne s.pc (s.reg x) kk)

/-- Settles O29: skips on Vx = Vy and on its complement. -/
theorem registerSkips : Obligations.RegisterSkips := by
  refine ⟨encodedAs_row (.seReg 0 0) fun _ => rfl, encodedAs_row (.sneReg 0 0) fun _ => rfl, fun x y s => ⟨?_, ?_⟩⟩
  · exact exists_executes_skip rfl (skipTarget_beq s.pc (s.reg x) (s.reg y))
  · exact exists_executes_skip rfl (skipTarget_bne s.pc (s.reg x) (s.reg y))

end Sys2Proof.Proofs
end

section
/-! PROOF. The family 41_register_alu: loads, arithmetic, logic, shifts and the random byte, with VF as an operand. -/

namespace Sys2Proof.Machine

variable {s : State} {x y : Reg} {f b : Byte} {result : State → Byte}

/-! ## The registers after a flag-setting instruction (R14, R133) -/

/-- The result is computed from the registers as they are after the flag write. -/
theorem flagThenReg_reg_self : (flagThenReg f x result s).reg x = result (s.setReg VF f) := State.setReg_reg_self _ x _

theorem flagThenReg_reg_VF (hx : x ≠ VF) : (flagThenReg f x result s).reg VF = f := by
  rw [flagThenReg, State.setReg_reg_of_ne _ _ hx.symm, State.setReg_reg_self]

theorem regThenFlag_reg_VF : (regThenFlag x b f s).reg VF = f := State.setReg_reg_self _ VF f

theorem regThenFlag_reg_self (hx : x ≠ VF) : (regThenFlag x b f s).reg x = b := by
  rw [regThenFlag, State.setReg_reg_of_ne _ _ hx, State.setReg_reg_self]

theorem aliasDraws_VF (s : State) : aliasDraws VF s = s.setRegFree VF := if_pos rfl

theorem aliasDraws_of_ne (hx : x ≠ VF) (s : State) : aliasDraws x s = (s.setRegFree VF).setRegFree x := if_neg hx

theorem aliasDraws_reg_VF (x : Reg) (s : State) : (aliasDraws x s).reg VF = Config.freeByte s.draws := by
  by_cases hx : x = VF
  · subst hx
    simp [aliasDraws_VF, State.setRegFree_eq]
  · simp [aliasDraws_of_ne hx, State.setRegFree_eq, State.setReg_reg_of_ne _ _ (Ne.symm hx)]

/-! ## Which meaning a flag-setting instruction has (R133, D12) -/

theorem aliased2_false (hx : x ≠ VF) (hy : y ≠ VF) : aliased2 x y = false := by simp [aliased2, hx, hy]

theorem aliased2_true (h : x = VF ∨ y = VF) : aliased2 x y = true := by simpa [aliased2] using h

theorem aliased1_false (hx : x ≠ VF) : aliased1 x = false := decide_eq_false hx

theorem aliased1_true (hx : x = VF) : aliased1 x = true := decide_eq_true hx

/-- With no alias in question a two-register instruction has its written clauses. -/
theorem resolveAlias2_sequential {u : State} (h : s.params.vfAlias = .sequential ∨ (x ≠ VF ∧ y ≠ VF)) :
    resolveAlias (aliased2 x y) x u s = u :=
  resolveAlias_sequential (h.imp_right fun ⟨hx, hy⟩ => aliased2_false hx hy)

/-- With no alias in question a shift has its written clauses. -/
theorem resolveAlias1_sequential {u : State} (h : s.params.vfAlias = .sequential ∨ x ≠ VF) :
    resolveAlias (aliased1 x) x u s = u :=
  resolveAlias_sequential (h.imp_right aliased1_false)

theorem resolveAlias_unspecified {aliased : Bool} {u : State} (h : s.params.vfAlias = .unspecified)
    (ha : aliased = true) : resolveAlias aliased x u s = aliasDraws x s := by
  simp [resolveAlias, h, ha]

/-- The difference of two operands, in the order the comparison chose (R127). -/
def chosenDifference (greater : Prop) [Decidable greater] (p q : Byte) : Byte := if greater then p - q else q - p

/-- `8xy5` writes the flag first, then the difference from the values after that write. -/
theorem subSwapping_eq (x y : Reg) (s : State) :
    subSwapping x y s = flagThenReg (greaterFlag (s.reg x) (s.reg y)) x
      (fun t => chosenDifference ((s.reg y).toNat < (s.reg x).toNat) (t.reg x) (t.reg y)) s := by
  unfold subSwapping
  split
  · next h => simp [chosenDifference, h]
  · next h => simp [chosenDifference, h]

/-! ## Flags and results as numbers (R126 to R130) -/

theorem flag_toNat (p : Prop) [Decidable p] : (flag (decide p)).toNat = if p then 1 else 0 := by
  by_cases h : p <;> simp [flag, h]

/-- A difference of bytes wraps. -/
theorem byte_sub_toNat (p q : Byte) : (p - q).toNat = (p.toNat + 256 - q.toNat) % 256 := by
  rw [BitVec.toNat_sub]
  have := q.isLt
  congr 1
  omega

theorem chosenDifference_toNat (greater : Prop) [Decidable greater] (p q : Byte) :
    (chosenDifference greater p q).toNat =
      if greater then (p.toNat + 256 - q.toNat) % 256 else (q.toNat + 256 - p.toNat) % 256 := by
  rw [chosenDifference, apply_ite BitVec.toNat, byte_sub_toNat, byte_sub_toNat]

theorem subnResult_wrap_toNat (p q : Byte) : (subnResult .wrap p q).toNat = (q.toNat + 256 - p.toNat) % 256 :=
  byte_sub_toNat q p

theorem subnResult_swap_toNat (p q : Byte) :
    (subnResult .swap p q).toNat = if p.toNat ≤ q.toNat then q.toNat - p.toNat else p.toNat - q.toNat := by
  show (if p.toNat ≤ q.toNat then q - p else p - q).toNat = _
  split
  · next h => exact BitVec.toNat_sub_of_le h
  · next h => exact BitVec.toNat_sub_of_le (Nat.le_of_not_le h)

theorem subnResult_self (mode : SubnUnderflow) (p : Byte) : subnResult mode p p = 0 := by
  cases mode with
  | wrap => exact BitVec.sub_self p
  | swap => exact (if_pos (Nat.le_refl _)).trans (BitVec.sub_self p)

theorem lowBitFlag_toNat (p : Byte) : (lowBitFlag p).toNat = p.toNat % 2 := by
  simp [lowBitFlag, BitVec.toNat_and, Nat.and_one_is_mod]

theorem highBitFlag_toNat (p : Byte) : (highBitFlag p).toNat = p.toNat / 128 := by
  simp [highBitFlag, Nat.shiftRight_eq_div_pow]

theorem byte_shiftRight_toNat (p : Byte) : (p >>> 1).toNat = p.toNat / 2 := by
  simp [Nat.shiftRight_eq_div_pow]

theorem byte_shiftLeft_toNat (p : Byte) : (p <<< 1).toNat = 2 * p.toNat % 256 := by
  simp [Nat.shiftLeft_eq, Nat.mul_comm]

end Sys2Proof.Machine

namespace Sys2Proof

open Machine

variable {s u : State} {i : Instr} {c : Touched}

/-! ## Frames of register writes (R15, R38) -/

/-- A register write adds its register to those a frame names. -/
theorem Frame.setReg (h : Frame c s u) (r : Reg) (b : Byte) :
    Frame { c with regs := r :: c.regs } s (u.setReg r b) := by
  obtain ⟨regs, index, stack, sound, screen, draws, mem, keys, status, params, stage, lacks⟩ := h
  refine ⟨fun q hq => ?_, index, stack, sound, screen, draws, mem, keys, status, params, stage, fun q => ?_⟩
  · obtain ⟨hne, hrest⟩ := not_or.mp (mt List.mem_cons.mpr hq)
    exact (u.setReg_reg_of_ne b hne).trans (regs q hrest)
  · rw [State.setReg_lacks, lacks, Bool.and_assoc]
    cases q with
    | V q => simp [Touched.writes, Bool.and_comm]
    | I | DT => simp [Touched.writes]

/-- A frame that names the free bytes allows a draw. -/
theorem Frame.drawn (h : Frame c s u) (hc : c.draws = true) : Frame c s u.drawn := by
  obtain ⟨regs, index, stack, sound, screen, -, rest⟩ := h
  exact ⟨regs, index, stack, sound, screen, fun hkept => Bool.noConfusion (hkept.symm.trans hc), rest⟩

theorem Frame.setRegFree (h : Frame c s u) (hc : c.draws = true) (r : Reg) :
    Frame { c with regs := r :: c.regs } s (u.setRegFree r) :=
  (h.setReg r u.freeByte).drawn hc

/-- A frame depends on which registers it names, not on their order. -/
theorem Frame.of_same_regs {rs : List Reg} (h : Frame c s u) (hrs : ∀ r, r ∈ c.regs ↔ r ∈ rs) :
    Frame { c with regs := rs } s u := by
  obtain ⟨regs, index, stack, sound, screen, draws, mem, keys, status, params, stage, lacks⟩ := h
  refine ⟨fun r hr => regs r (mt (hrs r).mp hr), index, stack, sound, screen, draws, mem, keys, status, params, stage,
    fun q => ?_⟩
  rw [lacks]
  cases q with
  | V q => simp [Touched.writes, hrs]
  | I | DT => rfl

/-- The frame of an instruction that draws free bytes and writes no register. -/
theorem Frame.onDraws (s : State) : Frame { draws := true } s s := .refl (fun r => by cases r <;> rfl) s

/-! ## The instructions that write registers alone, executed (R15, R74, R75) -/

/-- An instruction that writes registers alone ends at the next word. -/
theorem executes_of_writes (hexec : exec i s = advance u) (writes : WritesRegisters s u) (hframe : Frame c s u) :
    Executes i s (u.retire (s.pc + 2)) (s.pc + 2) s.DT c :=
  executes_of_retire (hexec.trans (by rw [advance_eq, writes.pc])) writes.DT hframe

variable {x y : Reg} {f b : Byte} {result : State → Byte}

theorem executes_setReg (hexec : exec i s = advance (s.setReg x b)) :
    Executes i s ((s.setReg x b).retire (s.pc + 2)) (s.pc + 2) s.DT { regs := [x] } :=
  executes_of_writes hexec ((WritesRegisters.refl s).setReg x b) ((Frame.untouched s).setReg x b)

theorem executes_flagThenReg (hexec : exec i s = advance (flagThenReg f x result s)) :
    Executes i s ((flagThenReg f x result s).retire (s.pc + 2)) (s.pc + 2) s.DT { regs := [x, VF] } :=
  executes_of_writes hexec (.flagThenReg s f x result) (((Frame.untouched s).setReg VF f).setReg x _)

theorem executes_regThenFlag (hexec : exec i s = advance (regThenFlag x b f s)) :
    Executes i s ((regThenFlag x b f s).retire (s.pc + 2)) (s.pc + 2) s.DT { regs := [x, VF] } :=
  executes_of_writes hexec (((WritesRegisters.refl s).setReg x b).setReg VF f)
    ((((Frame.untouched s).setReg x b).setReg VF f).of_same_regs fun _ => (List.Perm.swap x VF []).mem_iff)

/-- The clauses of a two-register instruction whose flag is written first, by which of its operands is VF (R133): an
operand VF is read after the flag write, so it holds the flag. -/
theorem exists_executes_flagThenReg (g : Byte → Byte → Byte)
    (hexec : exec i s = advance (flagThenReg f x (fun t => g (t.reg x) (t.reg y)) s)) :
    ∃ t, Executes i s t (s.pc + 2) s.DT { regs := [x, VF] } ∧
      (x ≠ VF → y ≠ VF → t.reg VF = f ∧ t.reg x = g (s.reg x) (s.reg y)) ∧
      (x = VF → y ≠ VF → t.reg VF = g f (s.reg y)) ∧
      (x ≠ VF → y = VF → t.reg VF = f ∧ t.reg x = g (s.reg x) f) ∧
      (x = VF → y = VF → t.reg VF = g f f) := by
  have hflag (hx : x ≠ VF) : (flagThenReg f x (fun t => g (t.reg x) (t.reg y)) s).reg VF = f := flagThenReg_reg_VF hx
  refine ⟨_, executes_flagThenReg hexec, fun hx hy => ⟨hflag hx, ?_⟩, fun hx hy => ?_, fun hx hy => ⟨hflag hx, ?_⟩,
    fun hx hy => ?_⟩
  · rw [State.retire_reg, flagThenReg_reg_self, State.setReg_reg_of_ne _ _ hx, State.setReg_reg_of_ne _ _ hy]
  · subst hx
    rw [State.retire_reg, flagThenReg_reg_self, State.setReg_reg_self, State.setReg_reg_of_ne _ _ hy]
  · subst hy
    rw [State.retire_reg, flagThenReg_reg_self, State.setReg_reg_of_ne _ _ hx, State.setReg_reg_self]
  · subst hx hy
    rw [State.retire_reg, flagThenReg_reg_self, State.setReg_reg_self]

theorem aliasDraws_frame (x : Reg) (s : State) : Frame { regs := [x, VF], draws := true } s (aliasDraws x s) := by
  have hVF := (Frame.onDraws s).setRegFree rfl VF
  unfold aliasDraws
  split
  · next hx => exact hVF.of_same_regs (by simp [hx])
  · exact hVF.setRegFree rfl x

theorem executes_aliasDraws (hexec : exec i s = advance (aliasDraws x s)) :
    Executes i s ((aliasDraws x s).retire (s.pc + 2)) (s.pc + 2) s.DT { regs := [x, VF], draws := true } :=
  executes_of_writes hexec (.aliasDraws s x) (aliasDraws_frame x s)

end Sys2Proof

namespace Sys2Proof.Proofs

open Machine

/-- Settles O33: the sum is written first and the carry last, both from the values before. -/
theorem addWithCarry : Obligations.AddWithCarry := by
  refine ⟨encodedAs_row (.addReg 0 0) fun _ => rfl, ?_⟩
  rintro x y s _ _ rfl rfl halias
  have hexec : exec (.addReg x y) s = advance (Machine.addWithCarry x y s) :=
    congrArg advance (resolveAlias2_sequential halias)
  refine ⟨_, executes_regThenFlag hexec, ?_, fun hx => ?_⟩
  · rw [State.retire_reg, regThenFlag_reg_VF, carryFlag, flag_toNat]
  · rw [State.retire_reg, regThenFlag_reg_self hx, BitVec.toNat_add]

/-- Settles O34: the difference in the chosen order, by which of the operands is VF. -/
theorem subtractSwapping : Obligations.SubtractSwapping := by
  refine ⟨encodedAs_row (.sub 0 0) fun _ => rfl, ?_⟩
  rintro x y s _ _ rfl rfl halias
  have hexec : exec (.sub x y) s = advance (subSwapping x y s) := congrArg advance (resolveAlias2_sequential halias)
  have hflag : (greaterFlag (s.reg x) (s.reg y)).toNat = if (s.reg y).toNat < (s.reg x).toNat then 1 else 0 :=
    flag_toNat _
  obtain ⟨t, ht, neither, xOnly, yOnly, both⟩ := exists_executes_flagThenReg _ (subSwapping_eq x y s ▸ hexec)
  refine ⟨t, ht, fun hx hy => ?_, fun hx hy => ?_, fun hx hy => ?_, fun hx hy => ?_⟩
  · obtain ⟨hVF, hdiff⟩ := neither hx hy
    rw [hVF, hdiff, hflag, chosenDifference_toNat]
    exact ⟨rfl, by split <;> omega⟩
  · rw [xOnly hx hy, chosenDifference_toNat, hflag]
    split <;> omega
  · obtain ⟨hVF, hdiff⟩ := yOnly hx hy
    rw [hVF, hdiff, chosenDifference_toNat, hflag]
    exact ⟨rfl, by split <;> omega⟩
  · rw [both hx hy, chosenDifference_toNat]
    split <;> omega

/-- Settles O35: the result of the parameter's value, by which of the operands is VF. -/
theorem reverseSubtract : Obligations.ReverseSubtract := by
  refine ⟨encodedAs_row (.subn 0 0) fun _ => rfl, ?_⟩
  rintro x y s _ _ _ result rfl rfl rfl halias hspec
  have hexec : exec (.subn x y) s = advance (reverseSub x y s) := congrArg advance (resolveAlias2_sequential halias)
  have hflag : (lessFlag (s.reg x) (s.reg y)).toNat = if (s.reg x).toNat < (s.reg y).toNat then 1 else 0 :=
    flag_toNat _
  have hresult (p q : Byte) : (subnResult s.params.subnUnderflow p q).toNat = result p.toNat q.toNat := by
    rw [hspec]
    cases s.params.subnUnderflow with
    | wrap => exact subnResult_wrap_toNat p q
    | swap => exact subnResult_swap_toNat p q
  obtain ⟨t, ht, neither, xOnly, yOnly, both⟩ :=
    exists_executes_flagThenReg (subnResult s.params.subnUnderflow) hexec
  refine ⟨t, ht, fun hx hy => ?_, fun hx hy => ?_, fun hx hy => ?_, fun hx hy => ?_⟩
  · obtain ⟨hVF, hdiff⟩ := neither hx hy
    rw [hVF, hdiff, hresult, hflag]
    exact ⟨rfl, rfl⟩
  · rw [xOnly hx hy, hresult, hflag]
  · obtain ⟨hVF, hdiff⟩ := yOnly hx hy
    rw [hVF, hdiff, hresult, hflag]
    exact ⟨rfl, rfl⟩
  · rw [both hx hy, subnResult_self]
    rfl

/-- Settles O36: with x = F the shift is of the flag just written. -/
theorem shiftsByOne : Obligations.ShiftsByOne := by
  refine ⟨encodedAs_row (.shr 0 0) fun _ => rfl, encodedAs_row (.shl 0 0) fun _ => rfl, ?_⟩
  rintro x y s _ rfl halias
  constructor
  · have hexec : exec (.shr x y) s = advance (shiftRight x s) := congrArg advance (resolveAlias1_sequential halias)
    refine ⟨_, executes_flagThenReg hexec, fun hx => ⟨?_, ?_⟩, fun hx => ?_⟩
    · rw [State.retire_reg, flagThenReg_reg_VF hx, lowBitFlag_toNat]
    · rw [State.retire_reg, flagThenReg_reg_self, State.setReg_reg_of_ne _ _ hx, byte_shiftRight_toNat]
    · subst hx
      rw [State.retire_reg, flagThenReg_reg_self, State.setReg_reg_self, byte_shiftRight_toNat, lowBitFlag_toNat]
      omega
  · have hexec : exec (.shl x y) s = advance (shiftLeft x s) := congrArg advance (resolveAlias1_sequential halias)
    refine ⟨_, executes_flagThenReg hexec, fun hx => ⟨?_, ?_⟩, fun hx => ?_⟩
    · rw [State.retire_reg, flagThenReg_reg_VF hx, highBitFlag_toNat]
    · rw [State.retire_reg, flagThenReg_reg_self, State.setReg_reg_of_ne _ _ hx, byte_shiftLeft_toNat]
    · subst hx
      rw [State.retire_reg, flagThenReg_reg_self, State.setReg_reg_self, byte_shiftLeft_toNat, highBitFlag_toNat]
      omega

/-- Settles O37: every aliased form draws for the registers it writes. -/
theorem aliasedFlagsAreFreeWhenUnspecified : Obligations.AliasedFlagsAreFreeWhenUnspecified := by
  intro x y s i hfree haliased
  have hexec : exec i s = advance (aliasDraws x s) := by
    rcases haliased with ⟨hi, hVF⟩ | ⟨hi, hx⟩
    · have hdraws (u : State) := resolveAlias_unspecified (x := x) (u := u) hfree (aliased2_true hVF)
      rcases hi with rfl | rfl | rfl <;> exact congrArg advance (hdraws _)
    · have hdraws (u : State) := resolveAlias_unspecified (x := x) (u := u) hfree (aliased1_true hx)
      rcases hi with rfl | rfl <;> exact congrArg advance (hdraws _)
  refine ⟨_, executes_aliasDraws hexec, aliasDraws_reg_VF x s, fun hx => ?_, fun hx => ?_⟩
  · rw [hx, aliasDraws_VF]
    rfl
  · rw [aliasDraws_of_ne hx]
    exact ⟨State.setReg_reg_self _ x _, rfl⟩

/-- Settles O38: the byte drawn is masked bit by bit. -/
theorem randomByteMasked : Obligations.RandomByteMasked := by
  refine ⟨encodedAs_row (.rnd 0 0) fun _ => rfl, fun x kk s => ?_⟩
  have hframe := ((Frame.onDraws s).setReg x (s.freeByte &&& kk)).drawn rfl
  refine ⟨_, executes_of_writes rfl ((WritesRegisters.refl s).setReg x _).drawn hframe, rfl, fun b => ?_⟩
  rw [State.retire_reg, State.drawn_reg, State.setReg_reg_self]
  exact BitVec.getLsbD_and

/-- Settles O31: each writes one value to Vx. -/
theorem loadsAndPlainAdd : Obligations.LoadsAndPlainAdd := by
  refine ⟨encodedAs_row (.ldByte 0 0) fun _ => rfl, encodedAs_row (.addByte 0 0) fun _ => rfl,
    encodedAs_row (.ldReg 0 0) fun _ => rfl, fun x y kk s => ⟨?_, ?_, ?_⟩⟩
  · exact ⟨_, executes_setReg rfl, State.setReg_reg_self s x kk⟩
  · refine ⟨_, executes_setReg rfl, ?_⟩
    rw [State.retire_reg, State.setReg_reg_self, BitVec.toNat_add]
  · exact ⟨_, executes_setReg rfl, State.setReg_reg_self s x (s.reg y)⟩

/-- Settles O32: each writes one value to Vx, made bit by bit. -/
theorem bitwiseLogic : Obligations.BitwiseLogic := by
  refine ⟨encodedAs_row (.orReg 0 0) fun _ => rfl, encodedAs_row (.andReg 0 0) fun _ => rfl,
    encodedAs_row (.xorReg 0 0) fun _ => rfl, fun x y s => ⟨?_, ?_, ?_⟩⟩
  · refine ⟨_, executes_setReg rfl, fun b => ?_⟩
    rw [State.retire_reg, State.setReg_reg_self, BitVec.getLsbD_or]
  · refine ⟨_, executes_setReg rfl, fun b => ?_⟩
    rw [State.retire_reg, State.setReg_reg_self, BitVec.getLsbD_and]
  · refine ⟨_, executes_setReg rfl, fun b => ?_⟩
    rw [State.retire_reg, State.setReg_reg_self, BitVec.getLsbD_xor]

end Sys2Proof.Proofs
end

section
/-! PROOF. The family 42_index_memory: the writes of I, and the transfers between registers and memory. -/

namespace Sys2Proof.Machine

variable {s : State} {x : Reg}

/-! ## The index-relative instructions, within memory and beyond it (R55, D5) -/

theorem exec_ldB_within (h : s.I.toNat + 2 ≤ 4095) :
    exec (.ldB x) s = .next ((s.storeBytes s.I.toNat (decimalDigits (s.reg x))).retire (s.pc + 2)) :=
  withRange_ok _ (.inr (by omega))

theorem exec_ldB_beyond (h : 4095 < s.I.toNat + 2) :
    exec (.ldB x) s = .next (s.halt (.memoryOutOfRange .write (max s.I.toNat 4096) s.pc)) :=
  withRange_bad _ nofun (by omega)

theorem exec_storeRegs_within (h : s.I.toNat + x.val ≤ 4095) :
    exec (.storeRegs x) s = .next ((s.storeBytes s.I.toNat (s.regsThrough x)).retire (s.pc + 2)) :=
  withRange_ok _ (.inr (by omega))

theorem exec_storeRegs_beyond (h : 4095 < s.I.toNat + x.val) :
    exec (.storeRegs x) s = .next (s.halt (.memoryOutOfRange .write (max s.I.toNat 4096) s.pc)) :=
  withRange_bad _ nofun (by omega)

theorem exec_loadRegs_within (h : s.I.toNat + x.val ≤ 4095) :
    exec (.loadRegs x) s = .next ((s.setRegsThrough x s.bytesAtI).retire (s.pc + 2)) :=
  withRange_ok _ (.inr (by omega))

theorem exec_loadRegs_beyond (h : 4095 < s.I.toNat + x.val) :
    exec (.loadRegs x) s = .next (s.halt (.memoryOutOfRange .read (max s.I.toNat 4096) s.pc)) :=
  withRange_bad _ nofun (by omega)

/-! ## The bytes stored (R143, R144) -/

theorem State.storeBytes_byteAt_of_getElem? {a k : Nat} {bs : List Byte} {b : Byte} (s : State)
    (h : a + bs.length ≤ 4096) (hb : bs[k]? = some b) : (s.storeBytes a bs).byteAt (a + k) = b := by
  obtain ⟨hk, -⟩ := List.getElem?_eq_some_iff.mp hb
  rw [State.storeBytes_byteAt, Memory.read_writeBytes _ _ _ h, if_pos (by omega), Nat.add_sub_cancel_left, hb]
  rfl

theorem State.storeBytes_byteAt_outside {a c : Nat} {bs : List Byte} (s : State) (h : a + bs.length ≤ 4096)
    (hc : ¬ (a ≤ c ∧ c < a + bs.length)) : (s.storeBytes a bs).byteAt c = s.byteAt c := by
  rw [State.storeBytes_byteAt, Memory.read_writeBytes _ _ _ h, if_neg hc]
  rfl

@[simp] theorem State.regsThrough_length (s : State) (x : Reg) : (s.regsThrough x).length = x.val + 1 := by
  simp only [State.regsThrough, List.length_take, Vector.length_toList]
  omega

theorem State.regsThrough_getElem? (s : State) {x j : Reg} (hj : j ≤ x) :
    (s.regsThrough x)[j.val]? = some (s.reg j) := by
  have hlt : j.val < x.val + 1 := Nat.lt_succ_of_le hj
  simp [State.regsThrough, State.reg, List.getElem?_take_of_lt hlt]

/-- `Fx55` leaves each of V0..Vx at its place from `I` up. -/
theorem storedRegs_byteAt (h : s.I.toNat + x.val ≤ 4095) {j : Reg} (hj : j ≤ x) :
    (s.storeBytes s.I.toNat (s.regsThrough x)).byteAt (s.I.toNat + j.val) = s.reg j :=
  s.storeBytes_byteAt_of_getElem? (by rw [s.regsThrough_length]; omega) (s.regsThrough_getElem? hj)

/-- `Fx33` leaves each decimal digit at its place from `I` up. -/
theorem storedDigit_toNat (h : s.I.toNat + 2 ≤ 4095) {k d : Nat}
    (hdigit : (decimalDigits (s.reg x))[k]? = some (BitVec.ofNat 8 d)) (hd : d ≤ 9) :
    ((s.storeBytes s.I.toNat (decimalDigits (s.reg x))).byteAt (s.I.toNat + k)).toNat = d := by
  rw [s.storeBytes_byteAt_of_getElem? (Nat.succ_le_succ h) hdigit, BitVec.toNat_ofNat]
  omega

/-! ## The values of I (R141, R142) -/

/-- The address of a glyph never wraps. -/
theorem glyphAddress_toNat (v : Byte) : (glyphAddress v).toNat = v.toNat * 5 := by
  have := v.isLt
  rw [glyphAddress, BitVec.toNat_mul, BitVec.toNat_setWidth, show (5 : Half).toNat = 5 from rfl]
  omega

theorem indexSum_toNat (a : Half) (v : Byte) : (a + v.setWidth 16).toNat = (a.toNat + v.toNat) % 65536 := by
  have := v.isLt
  rw [BitVec.toNat_add, BitVec.toNat_setWidth]
  omega

end Sys2Proof.Machine

namespace Sys2Proof

open Machine

variable {i : Instr}

/-! ## The frames of the transfers (R15, R38) -/

theorem Frame.ofSetI (s : State) (a : Half) : Frame { index := true } s (s.setI a) := by
  obtain ⟨regs, -, stack, sound, screen, draws, mem, keys, status, params, stage, -⟩ := Frame.untouched s
  refine ⟨regs, nofun, stack, sound, screen, draws, mem, keys, status, params, stage, fun q => ?_⟩
  rw [s.setI_lacks]
  cases q with
  | V | DT | I => simp [Touched.writes]

/-- A store frames the bytes it writes. -/
theorem Frame.ofStoreBytes (s : State) {a : Nat} {bs : List Byte} (h : a + bs.length ≤ 4096) :
    Frame { base := a, len := bs.length } s (s.storeBytes a bs) := by
  obtain ⟨regs, index, stack, sound, screen, draws, -, rest⟩ := Frame.untouched s
  exact ⟨regs, index, stack, sound, screen, draws, fun c hc => s.storeBytes_byteAt_outside h hc, rest⟩

/-- For an instruction that writes registers alone, a frame is a matter of the registers, the free bytes and the
registers without a value. -/
theorem Frame.ofWritesRegisters {c : Touched} {s u : State} (w : WritesRegisters s u)
    (regs : ∀ r, r ∉ c.regs → u.reg r = s.reg r) (draws : c.draws = false → u.draws = s.draws)
    (lacks : ∀ q, u.lacks q = (s.lacks q && !c.writes q)) : Frame c s u :=
  ⟨regs, fun _ => w.I, fun _ => ⟨w.SP, fun j => congrArg (·[j]) w.stack⟩, fun _ => w.ST,
    fun _ => ⟨w.drawFlag, fun r k => congrArg (·[r][k]) w.disp⟩, draws, fun a _ => congrArg (·.read a) w.mem,
    fun k => congrArg (·[k]) w.key, w.status, w.params, w.stage, lacks⟩

theorem Frame.ofSetRegsThrough (s : State) (x : Reg) (v : Vector Byte 16) :
    Frame { regs := (List.finRange 16).filter (fun j => j ≤ x) } s (s.setRegsThrough x v) := by
  refine .ofWritesRegisters (.setRegsThrough s x v) (fun r hr => ?_) (fun _ => s.setRegsThrough_draws x v) fun q => ?_
  · have hx : ¬ r ≤ x := by simpa using hr
    rw [s.setRegsThrough_reg, if_neg hx]
  · rw [s.setRegsThrough_lacks]
    cases q with
    | V r =>
      have hlt : decide (x < r) = !decide (r ≤ x) := by rw [← decide_not, decide_eq_decide, not_le]
      simp [Touched.writes, hlt]
    | I | DT => simp [Touched.writes]

/-- An instruction that writes I alone ends at the next word. -/
theorem executes_setI {s : State} {a : Half} (hexec : exec i s = advance (s.setI a)) :
    Executes i s ((s.setI a).retire (s.pc + 2)) (s.pc + 2) s.DT { index := true } :=
  executes_of_retire hexec rfl (.ofSetI s a)

end Sys2Proof

namespace Sys2Proof.Proofs

open Machine

/-- Settles O40: the three digits are the bytes stored from I up. -/
theorem storesDecimalDigits : Obligations.StoresDecimalDigits := by
  refine ⟨encodedAs_row (.ldB 0) fun _ => rfl, ?_⟩
  rintro x s _ rfl
  refine ⟨fun within => ?_, exec_ldB_beyond⟩
  have hlt := (s.reg x).isLt
  refine ⟨_, executes_of_retire (exec_ldB_within within) rfl (.ofStoreBytes s (Nat.succ_le_succ within)), ?_, ?_, ?_⟩
  · exact storedDigit_toNat (k := 0) within rfl (by omega)
  · exact storedDigit_toNat (k := 1) within rfl (by omega)
  · exact storedDigit_toNat (k := 2) within rfl (by omega)

/-- Settles O41: V0..Vx are the bytes stored from I up. -/
theorem storesRegisters : Obligations.StoresRegisters := by
  refine ⟨encodedAs_row (.storeRegs 0) fun _ => rfl, fun x s => ⟨fun within => ?_, exec_storeRegs_beyond⟩⟩
  have hframe := Frame.ofStoreBytes s (a := s.I.toNat) (bs := s.regsThrough x) (by rw [s.regsThrough_length]; omega)
  rw [s.regsThrough_length] at hframe
  exact ⟨_, executes_of_retire (exec_storeRegs_within within) rfl hframe, fun j => storedRegs_byteAt within⟩

/-- Settles O42: V0..Vx are the bytes from I up. -/
theorem loadsRegisters : Obligations.LoadsRegisters := by
  refine ⟨encodedAs_row (.loadRegs 0) fun _ => rfl, fun x s => ⟨fun within => ?_, exec_loadRegs_beyond⟩⟩
  refine ⟨_, executes_of_retire (exec_loadRegs_within within) rfl (.ofSetRegsThrough s x s.bytesAtI), fun j hj => ?_⟩
  rw [State.retire_reg, s.setRegsThrough_reg, if_pos hj, s.bytesAtI_getElem]

/-- Settles O43: a store that did not fault was within memory, and so is the load from the same I, which finds each
stored register at its place. -/
theorem loadRestoresStoredRegisters : Obligations.LoadRestoresStoredRegisters := by
  intro x s t regs hstore hrun _
  rcases Nat.lt_or_ge 4095 (s.I.toNat + x.val) with beyond | within
  · cases (exec_storeRegs_beyond beyond).symm.trans hstore
    cases hrun
  · cases (exec_storeRegs_within within).symm.trans hstore
    refine ⟨_, exec_loadRegs_within within, fun j hj => ?_, fun j hj => ?_, rfl, rfl⟩
    · rw [State.retire_reg, State.setRegsThrough_reg, if_pos hj, State.bytesAtI_getElem]
      exact storedRegs_byteAt within hj
    · rw [State.retire_reg, State.setRegsThrough_reg, if_neg (not_le_of_gt hj)]
      rfl

/-- Settles O39: each writes one address to I. -/
theorem indexRegisterWrites : Obligations.IndexRegisterWrites := by
  refine ⟨encodedAs_row (.ldI 0) fun _ => rfl, encodedAs_row (.addI 0) fun _ => rfl,
    encodedAs_row (.ldF 0) fun _ => rfl, fun x nnn s => ⟨?_, ?_, ?_⟩⟩
  · exact ⟨_, executes_setI rfl, addressOf_toNat nnn⟩
  · exact ⟨_, executes_setI rfl, indexSum_toNat s.I (s.reg x)⟩
  · exact ⟨_, executes_setI rfl, glyphAddress_toNat (s.reg x)⟩

end Sys2Proof.Proofs
end

section
/-! PROOF. The family 43_display: clearing the screen, drawing a sprite, and drawing it twice. -/

namespace Sys2Proof.Machine

/-! ## The pixels of a sprite (R161, R163) -/

theorem Memory.readBytes_getElem?_eq_some {m : Memory} {a n k : Nat} {b : Byte} :
    (m.readBytes a n)[k]? = some b ↔ k < n ∧ m.read (a + k) = b := by
  simp [Memory.readBytes, List.getElem?_eq_some_iff]

@[simp] theorem Memory.readBytes_length (m : Memory) (a n : Nat) : (m.readBytes a n).length = n := by
  simp [Memory.readBytes]

theorem blankDisplay_pixel (r : Fin 32) (c : Fin 64) : blankDisplay[r][c] = false := by
  simp [blankDisplay]

variable {s t : State} {x y : Reg} {n : Nat} {r : Fin 32} {c : Fin 64}

/-- What `Dxyn` draws in `s`, before VF is written. -/
def drawing (x y : Reg) (n : Nat) (s : State) : Drawing :=
  drawSprite s.params.spriteBitOrder (s.reg x).toNat (s.reg y).toNat (s.mem.readBytes s.I.toNat n) s.disp

/-- The pixels a sprite covers are those its rows, read from I up, set. -/
theorem covers_iff_spriteSets : Covers s x y n r c ↔
    SpriteSets s.params.spriteBitOrder (s.reg x).toNat (s.reg y).toNat 0 (s.mem.readBytes s.I.toNat n) r c := by
  constructor
  · rintro ⟨i, j, hi, hj, hrow, hcol, hbit⟩
    refine ⟨i, _, Memory.readBytes_getElem?_eq_some.mpr ⟨hi, rfl⟩, by rwa [Nat.zero_add], j, List.mem_range.mpr hj,
      hcol, ?_⟩
    cases horder : s.params.spriteBitOrder <;> rwa [horder] at hbit
  · rintro ⟨i, b, hb, hrow, j, hj, hcol, hbit⟩
    obtain ⟨hi, rfl⟩ := Memory.readBytes_getElem?_eq_some.mp hb
    refine ⟨i, j, hi, List.mem_range.mp hj, by rwa [Nat.zero_add] at hrow, hcol, ?_⟩
    cases horder : s.params.spriteBitOrder <;> rwa [horder] at hbit

/-- `Dxyn` draws every pixel its sprite covers flipped and every other as it was, and collides on a covered 1. -/
theorem drawing_spec (x y : Reg) (s : State) (hn : n ≤ 15) :
    (∀ r c, (Covers s x y n r c → (drawing x y n s).disp[r][c] = !s.pixel r c) ∧
      (¬ Covers s x y n r c → (drawing x y n s).disp[r][c] = s.pixel r c)) ∧
    ((drawing x y n s).collision = true ↔ ∃ r c, Covers s x y n r c ∧ s.pixel r c = true) := by
  simp only [covers_iff_spriteSets]
  exact drawSprite_spec _ _ _ _ _ (by rw [Memory.readBytes_length]; omega)

/-! ## The state after a sprite is drawn (R161, D12; log 9) -/

/-- `Dxyn` leaves a free byte in VF: VF is a position operand, under `Unspecified`. -/
abbrev DrawsFreeFlag (x y : Reg) (s : State) : Prop := s.params.vfAlias = .unspecified ∧ (x = VF ∨ y = VF)

theorem not_drawsFreeFlag (h : s.params.vfAlias = .sequential ∨ (x ≠ VF ∧ y ≠ VF)) : ¬ DrawsFreeFlag x y s := by
  rintro ⟨hfree, hVF⟩
  rcases h with h | ⟨hx, hy⟩
  · cases h.symm.trans hfree
  · exact hVF.elim hx hy

theorem drawAt_of_free (h : DrawsFreeFlag x y s) :
    drawAt x y n s = (s.redraw (drawing x y n s).disp).setRegFree VF := by
  unfold drawAt
  split
  · next hsequential => cases hsequential.symm.trans h.1
  · exact if_pos h.2

theorem drawAt_of_not_free (h : ¬ DrawsFreeFlag x y s) :
    drawAt x y n s = (s.redraw (drawing x y n s).disp).setReg VF (if (drawing x y n s).collision then 1 else 0) := by
  unfold drawAt
  split
  · rfl
  · next hfree => exact if_neg fun hVF => h ⟨hfree, hVF⟩

/-- The screen after `Dxyn` is the one drawn: VF is written after it. -/
theorem drawAt_writes_drawing (x y : Reg) (n : Nat) (s : State) :
    WritesRegisters (s.redraw (drawing x y n s).disp) (drawAt x y n s) := by
  by_cases h : DrawsFreeFlag x y s
  · rw [drawAt_of_free h]
    exact (WritesRegisters.refl _).setRegFree VF
  · rw [drawAt_of_not_free h]
    exact (WritesRegisters.refl _).setReg VF _

theorem drawAt_pixel : (drawAt x y n s).pixel r c = (drawing x y n s).disp[r][c] :=
  congrArg (·[r][c]) (drawAt_writes_drawing x y n s).disp

theorem drawAt_pixel_of_covers (hn : n ≤ 15) (h : Covers s x y n r c) :
    (drawAt x y n s).pixel r c = !s.pixel r c := by
  obtain ⟨pixels, -⟩ := drawing_spec x y s hn
  exact drawAt_pixel.trans ((pixels r c).1 h)

theorem drawAt_pixel_of_not_covers (hn : n ≤ 15) (h : ¬ Covers s x y n r c) :
    (drawAt x y n s).pixel r c = s.pixel r c := by
  obtain ⟨pixels, -⟩ := drawing_spec x y s hn
  exact drawAt_pixel.trans ((pixels r c).2 h)

theorem drawAt_reg_VF_of_collision (hn : n ≤ 15) (h : ¬ DrawsFreeFlag x y s)
    (hit : ∃ r c, Covers s x y n r c ∧ s.pixel r c = true) : (drawAt x y n s).reg VF = 1 := by
  obtain ⟨-, collision⟩ := drawing_spec x y s hn
  rw [drawAt_of_not_free h, State.setReg_reg_self, if_pos (collision.mpr hit)]

theorem drawAt_reg_VF_of_no_collision (hn : n ≤ 15) (h : ¬ DrawsFreeFlag x y s)
    (miss : ¬ ∃ r c, Covers s x y n r c ∧ s.pixel r c = true) : (drawAt x y n s).reg VF = 0 := by
  obtain ⟨-, collision⟩ := drawing_spec x y s hn
  rw [drawAt_of_not_free h, State.setReg_reg_self, if_neg (mt collision.mp miss)]

theorem drawAt_reg_VF_of_free (h : DrawsFreeFlag x y s) : (drawAt x y n s).reg VF = Config.freeByte s.draws := by
  rw [drawAt_of_free h, State.setRegFree_eq, State.drawn_reg, State.setReg_reg_self, State.redraw_draws]

theorem drawAt_draws_of_free (h : DrawsFreeFlag x y s) : (drawAt x y n s).draws = s.draws + 1 := by
  rw [drawAt_of_free h]
  rfl

/-! ## `Dxyn` within memory and beyond it (R55, R161, D5) -/

theorem exec_drw_within (h : n = 0 ∨ s.I.toNat + n - 1 ≤ 4095) :
    exec (.drw x y n) s = .next ((drawAt x y n s).retire (s.pc + 2)) := by
  have hadvance : advance (drawAt x y n s) = .next ((drawAt x y n s).retire (s.pc + 2)) := by
    rw [advance_eq, (drawAt_writes_drawing x y n s).pc, State.redraw_pc]
  exact (withRange_ok _ (h.imp_right fun within => by omega)).trans hadvance

theorem exec_drw_beyond (hn : 0 < n) (h : 4095 < s.I.toNat + n - 1) :
    exec (.drw x y n) s = .next (s.halt (.memoryOutOfRange .read (max s.I.toNat 4096) s.pc)) :=
  withRange_bad _ (by omega) (by omega)

end Sys2Proof.Machine

namespace Sys2Proof

open Machine

/-! ## The frames of the display instructions (R15) -/

/-- A frame that names the screen allows any pixels, with the draw flag. -/
theorem Frame.redraw {c : Touched} {s u : State} (h : Frame c s u) (hc : c.screen = true) (d : Display) :
    Frame c s (u.redraw d) := by
  obtain ⟨regs, index, stack, sound, -, rest⟩ := h
  exact ⟨regs, index, stack, sound, fun hkept => Bool.noConfusion (hkept.symm.trans hc), rest⟩

/-- The frame of an instruction that writes the screen, and may draw free bytes, but writes no register. -/
theorem Frame.ofRedraw (draws : Bool) (s : State) (d : Display) :
    Frame { screen := true, draws := draws } s (s.redraw d) :=
  (Frame.refl (fun r => by cases r <;> rfl) s).redraw rfl d

theorem drawAt_frame (x y : Reg) (n : Nat) (s : State) :
    Frame { regs := [VF], screen := true, draws := DrawsFreeFlag x y s } s (drawAt x y n s) := by
  have hscreen := Frame.ofRedraw (DrawsFreeFlag x y s) s (drawing x y n s).disp
  by_cases h : DrawsFreeFlag x y s
  · rw [drawAt_of_free h]
    exact hscreen.setRegFree (decide_eq_true h) VF
  · rw [drawAt_of_not_free h]
    exact hscreen.setReg VF _

/-! ## The same sprite once more (R161; log 25) -/

section
variable {x y : Reg} {n : Nat} {s : State} {r : Fin 32} {c : Fin 64}

/-- A sprite covers the same pixels after it was drawn, if VF is no position operand. -/
theorem covers_drawAt (hx : x ≠ VF) (hy : y ≠ VF) (p : Half) :
    Covers ((drawAt x y n s).retire p) x y n r c ↔ Covers s x y n r c := by
  obtain ⟨regs, index, -, -, -, -, bytes, -, -, params, -, -⟩ := (drawAt_frame x y n s).retire p
  have hbyte (a : Nat) : ((drawAt x y n s).retire p).byteAt a = s.byteAt a := bytes a (by simp)
  simp only [Covers, regs x (by simpa using hx), regs y (by simpa using hy), index rfl, hbyte, params]

/-- The second draw flips back what the first has flipped. -/
theorem drawAt_drawAt_pixel (hn : n ≤ 15) (hx : x ≠ VF) (hy : y ≠ VF) (p : Half) :
    (drawAt x y n ((drawAt x y n s).retire p)).pixel r c = s.pixel r c := by
  by_cases h : Covers s x y n r c
  · rw [drawAt_pixel_of_covers hn ((covers_drawAt hx hy p).mpr h), State.retire_pixel, drawAt_pixel_of_covers hn h,
      Bool.not_not]
  · rw [drawAt_pixel_of_not_covers hn (mt (covers_drawAt hx hy p).mp h), State.retire_pixel,
      drawAt_pixel_of_not_covers hn h]

/-- The second draw collides on the pixels the first has set. -/
theorem collides_drawAt_iff (hn : n ≤ 15) (hx : x ≠ VF) (hy : y ≠ VF) (p : Half) :
    (∃ r c, Covers ((drawAt x y n s).retire p) x y n r c ∧ ((drawAt x y n s).retire p).pixel r c = true) ↔
      ∃ r c, Covers s x y n r c ∧ s.pixel r c = false := by
  refine exists_congr fun r => exists_congr fun c => ?_
  rw [covers_drawAt hx hy]
  exact and_congr_right fun h => by rw [State.retire_pixel, drawAt_pixel_of_covers hn h, Bool.not_eq_true']

end

end Sys2Proof

namespace Sys2Proof.Proofs

open Machine

/-- Settles O45: `Dxyn` leaves the drawing of its sprite, then VF by the alias rule. -/
theorem drawFlipsTheSpritePixels : Obligations.DrawFlipsTheSpritePixels := by
  refine ⟨encodedAs_row (.drw 0 0 0) fun _ => rfl, fun x y n s hn => ⟨fun within => ?_, exec_drw_beyond⟩⟩
  have writes := drawAt_writes_drawing x y n s
  refine ⟨_, executes_of_retire (exec_drw_within within) writes.DT (drawAt_frame x y n s),
    fun r c => ⟨drawAt_pixel_of_covers hn, drawAt_pixel_of_not_covers hn⟩, writes.drawFlag, fun halias => ?_,
    fun hfree hVF => ⟨drawAt_reg_VF_of_free ⟨hfree, hVF⟩, drawAt_draws_of_free ⟨hfree, hVF⟩⟩⟩
  have hreport := not_drawsFreeFlag halias
  exact ⟨drawAt_reg_VF_of_collision hn hreport, drawAt_reg_VF_of_no_collision hn hreport⟩

/-- Settles O46: the second draw covers the same pixels, flips them back, and collides where they were 0. -/
theorem drawingTwiceRestoresTheDisplay : Obligations.DrawingTwiceRestoresTheDisplay := by
  intro x y n s hn hx hy within
  have hI : (drawAt x y n s).I = s.I := (drawAt_writes_drawing x y n s).I
  have hreport (t : State) : ¬ DrawsFreeFlag x y t := not_drawsFreeFlag (.inr ⟨hx, hy⟩)
  have hcollides := collides_drawAt_iff (s := s) hn hx hy (s.pc + 2)
  refine ⟨_, _, exec_drw_within within, exec_drw_within (by rwa [State.retire_I, hI]),
    fun r c => drawAt_drawAt_pixel hn hx hy _, fun hlit => ?_, fun hnone => ?_⟩
  · exact drawAt_reg_VF_of_collision hn (hreport _) (hcollides.mpr hlit)
  · exact drawAt_reg_VF_of_no_collision hn (hreport _) (mt hcollides.mp hnone)

/-- Settles O44: the screen is redrawn blank. -/
theorem clearDisplay : Obligations.ClearDisplay :=
  ⟨encodedAs_row .cls fun _ => rfl, fun s =>
    ⟨_, executes_of_retire rfl rfl (.ofRedraw false s blankDisplay), blankDisplay_pixel, rfl⟩⟩

end Sys2Proof.Proofs
end

section
/-! PROOF. The family 44_timers_keys: the key skips, the wait for a key, and the timers. -/

namespace Sys2Proof.Machine

variable {s : State} {w : Half} {x : Reg} {k : Fin 16}

/-! ## The lowest pressed key (R184) -/

/-- The first key found is the pressed one below which none is pressed. -/
theorem State.lowestKey_eq_some_iff :
    s.lowestKey = some k ↔ s.keyDown? k = true ∧ ∀ j, j < k → s.keyDown? j = false := by
  refine ⟨s.lowestKey_eq_some, fun ⟨hk, hbelow⟩ => ?_⟩
  cases hlow : s.lowestKey with
  | none => exact Bool.noConfusion ((s.lowestKey_eq_none.mp hlow k).symm.trans hk)
  | some m =>
    obtain ⟨hm, hmin⟩ := s.lowestKey_eq_some hlow
    have hkm : ¬ k < m := fun hlt => Bool.noConfusion ((hmin k hlt).symm.trans hk)
    have hmk : ¬ m < k := fun hlt => Bool.noConfusion ((hbelow m hlt).symm.trans hm)
    exact congrArg some (le_antisymm (not_lt.mp hkm) (not_lt.mp hmk))

/-- With no other key pressed, the key the host presses is the lowest. -/
theorem State.lowestKey_setKey (hkeys : ∀ j, s.keyDown? j = false) (k : Fin 16) :
    (s.setKey k true).lowestKey = some k := by
  refine State.lowestKey_eq_some_iff.mpr ⟨?_, fun j hj => ?_⟩
  · rw [State.setKey_keyDown, if_pos rfl]
  · rw [State.setKey_keyDown, if_neg (ne_of_lt hj), hkeys j]

/-- A key's index fits a register. -/
theorem keyByte_toNat (k : Fin 16) : (BitVec.ofNat 8 k.val).toNat = k.val :=
  (BitVec.toNat_ofNat k.val 8).trans (Nat.mod_eq_of_lt (by omega))

/-! ## Key skips (R180, R181) -/

theorem skipTarget_pressed (pc : Half) (b : Bool) :
    skipTarget pc (b == true) = if b = true then pc + 4 else pc + 2 := by
  cases b <;> rfl

theorem skipTarget_released (pc : Half) (b : Bool) :
    skipTarget pc (b == false) = if b = true then pc + 2 else pc + 4 := by
  cases b <;> rfl

/-- A test of the key a value names is a skip. -/
theorem skipIfKey_named {v : Byte} (want : Bool) (s : State) (hv : v.toNat = k.val) :
    skipIfKey want v s = skipIf (s.keyDown? k == want) s := by
  have hlt : v.toNat < 16 := hv ▸ k.isLt
  obtain rfl : (⟨v.toNat, hlt⟩ : Fin 16) = k := Fin.ext hv
  exact skipIfKey_ok s hlt

/-! ## The step at `Fx0A` (R183, R185) -/

/-- The word of an `Fx0A` is the encoder's: it has no don't-care bits. -/
theorem eq_encode_ldVxK (hd : decodeWord w = .insn (.ldVxK x)) : w = encode (.ldVxK x) :=
  BitVec.and_allOnes.symm.trans (Proofs.dontCareBitsAreIgnored w _ hd).1.symm

/-- `Fx0A` reads no register, so its step is never an unwritten read. -/
theorem step_ldVxK (h : s.AtWord w) (hd : decodeWord w = .insn (.ldVxK x)) :
    step s = exec (.ldVxK x) s.stepped ∧ stepOutcome s = wordOutcome w s (exec (.ldVxK x) s) :=
  ⟨(step_at h).trans (runWord_insn hd rfl), (stepOutcome_at h).trans (congrArg _ (runWord_insn hd rfl))⟩

/-- With a key pressed the step writes the lowest and goes on. -/
theorem step_ldVxK_pressed (h : s.AtWord w) (hd : decodeWord w = .insn (.ldVxK x)) (hk : s.lowestKey = some k) :
    step s = .next ((s.stepped.setReg x (BitVec.ofNat 8 k.val)).retire (s.pc + 2)) ∧ stepOutcome s = .executed := by
  have ⟨hs, _, _⟩ := h
  have hb : blocks (.ldVxK x) s = false := by simp [blocks, hk]
  obtain ⟨hstep, ho⟩ := step_ldVxK h hd
  rw [hstep, ho, exec_ldVxK_pressed (s := s.stepped) x hk, exec_ldVxK_pressed x hk]
  exact ⟨rfl, (wordOutcome_running s hd hs).trans (if_neg (ne_true_of_eq_false hb))⟩

/-- A core that waits for a key records the step and is blocked. -/
theorem step_waiting (h : s.WaitingForKey) : step s = .next s.stepped ∧ stepOutcome s = .blocked := by
  have ⟨⟨w, x, hat, hd⟩, hkeys⟩ := h
  have ⟨hs, _, _⟩ := hat
  have hnone := s.lowestKey_eq_none.mpr hkeys
  have hb : blocks (.ldVxK x) s = true := (waitingForKey_iff hat hd).mp h
  obtain ⟨hstep, ho⟩ := step_ldVxK hat hd
  rw [hstep, ho, exec_ldVxK_none (s := s.stepped) x hnone, exec_ldVxK_none x hnone]
  exact ⟨rfl, (wordOutcome_running s hd hs).trans (if_pos hb)⟩

/-- A wait leads to the same wait (R185). -/
theorem State.WaitingForKey.next (h : s.WaitingForKey) : s.stepped.WaitingForKey := h

theorem runSteps_waiting (h : s.WaitingForKey) (n : Nat) :
    runSteps n s = .next { s with stage := if n = 0 then s.stage else .stepped } := by
  induction n generalizing s with
  | zero => rfl
  | succ n ih =>
    rw [runSteps_succ n (step_waiting h).1, ih h.next]
    cases n <;> rfl

end Sys2Proof.Machine

namespace Sys2Proof

open Machine

/-! ## The frames of the timer writes (R15, R38) -/

theorem Frame.ofSetDT (s : State) (b : Byte) : Frame { delay := true } s (s.setDT b) := by
  obtain ⟨regs, index, stack, sound, screen, draws, mem, keys, status, params, stage, -⟩ := Frame.untouched s
  refine ⟨regs, index, stack, sound, screen, draws, mem, keys, status, params, stage, fun q => ?_⟩
  rw [s.setDT_lacks]
  cases q with
  | V | I | DT => simp [Touched.writes]

theorem Frame.ofSetST (s : State) (b : Byte) : Frame { sound := true } s (s.setST b) := by
  have hkept : Frame { sound := true } s s := .refl (fun r => by cases r <;> rfl) s
  obtain ⟨regs, index, stack, -, rest⟩ := hkept
  exact ⟨regs, index, stack, nofun, rest⟩

end Sys2Proof

namespace Sys2Proof.Proofs

open Machine

/-- Settles O30: a value up to 15 names a key, whose state the skip tests; any other faults. -/
theorem keySkips : Obligations.KeySkips := by
  refine ⟨encodedAs_row (.skp 0) fun _ => rfl, encodedAs_row (.sknp 0) fun _ => rfl,
    fun x s => ⟨fun k hk => ⟨?_, ?_⟩, fun hbad => ⟨skipIfKey_bad s hbad, skipIfKey_bad s hbad⟩⟩⟩
  · exact exists_executes_skip (skipIfKey_named true s hk) (skipTarget_pressed s.pc (s.keyDown? k))
  · exact exists_executes_skip (skipIfKey_named false s hk) (skipTarget_released s.pc (s.keyDown? k))

/-- Settles O48: the lowest key is found and written, or there is none and the step is blocked. -/
theorem keyWaitTakesTheLowestKey : Obligations.KeyWaitTakesTheLowestKey := by
  refine ⟨encodedAs_row (.ldVxK 0) fun _ => rfl, fun x s => ⟨fun k hk hbelow => ?_, fun hkeys => ?_⟩⟩
  · have hlow := State.lowestKey_eq_some_iff.mpr ⟨hk, hbelow⟩
    refine ⟨_, executes_setReg (exec_ldVxK_pressed x hlow), ?_⟩
    rw [State.retire_reg, State.setReg_reg_self, keyByte_toNat]
  · exact exec_ldVxK_none x (s.lowestKey_eq_none.mpr hkeys)

/-- Settles O51: the wait repeats itself; the one key then pressed is the lowest. -/
theorem keyWaitHoldsUntilAKey : Obligations.KeyWaitHoldsUntilAKey := by
  intro s n h
  refine ⟨runSteps_waiting h n, (step_waiting h).2, fun k hk => ?_⟩
  obtain ⟨⟨w, x, hat, hd⟩, hkeys⟩ := h
  have ⟨_, _, hword⟩ := hat
  have hk16 : k < 16 := by omega
  have hpressed : (s.setKey ⟨k, hk16⟩ true).AtWord w := hat
  obtain ⟨hstep, ho⟩ := step_ldVxK_pressed hpressed hd (State.lowestKey_setKey hkeys ⟨k, hk16⟩)
  refine ⟨_, _, x, dif_pos hk16, hstep, hword.trans (eq_encode_ldVxK hd), ?_, rfl, ho⟩
  rw [State.retire_reg, State.setReg_reg_self, keyByte_toNat]

/-- Settles O47: each writes its one register, and the tick runs on what then stands in DT. -/
theorem timerReadAndWrites : Obligations.TimerReadAndWrites := by
  refine ⟨encodedAs_row (.ldVxDT 0) fun _ => rfl, encodedAs_row (.ldDT 0) fun _ => rfl,
    encodedAs_row (.ldST 0) fun _ => rfl, fun x s => ⟨?_, ?_, ?_⟩⟩
  · exact ⟨_, executes_setReg rfl, State.setReg_reg_self s x s.DT⟩
  · exact ⟨_, executes_of_retire rfl rfl (.ofSetDT s (s.reg x))⟩
  · exact ⟨_, executes_of_retire rfl rfl (.ofSetST s (s.reg x)), rfl⟩

end Sys2Proof.Proofs
end

section
/-! PROOF. The family 60_exceptions: the fault table, faults that change the status alone, and the host's operations. -/

namespace Sys2Proof.Machine

variable {s t : State} {i : Instr} {f : Fault}

/-! ## The fault table of R202, row by row -/

/-- A row of the table that names no fault does not apply. -/
theorem not_of_row_eq_none {applies : Prop} [Decidable applies] (h : (if applies then some f else none) = none) :
    ¬ applies :=
  fun happlies => nomatch ite_eq_right_iff.mp h happlies

/-- The table names a fault of an instruction only where the instruction takes it. -/
theorem exec_of_tabledFault (h : tabledFault i s = some f) : exec i s = .next (s.halt f) := by
  cases i with
  | ret =>
    obtain ⟨hempty, ⟨⟩⟩ := Option.ite_none_right_eq_some.mp h
    exact exec_ret_empty (by omega)
  | call nnn =>
    obtain ⟨hfull, ⟨⟩⟩ := Option.ite_none_right_eq_some.mp h
    exact exec_call_full nnn (by omega)
  | skp | sknp =>
    obtain ⟨hbad, ⟨⟩⟩ := Option.ite_none_right_eq_some.mp h
    exact skipIfKey_bad s hbad
  | drw x y n =>
    obtain ⟨⟨hn, hbeyond⟩, ⟨⟩⟩ := Option.ite_none_right_eq_some.mp h
    exact exec_drw_beyond hn hbeyond
  | ldB x =>
    obtain ⟨hbeyond, ⟨⟩⟩ := Option.ite_none_right_eq_some.mp h
    exact exec_ldB_beyond hbeyond
  | storeRegs x =>
    obtain ⟨hbeyond, ⟨⟩⟩ := Option.ite_none_right_eq_some.mp h
    exact exec_storeRegs_beyond hbeyond
  | loadRegs x =>
    obtain ⟨hbeyond, ⟨⟩⟩ := Option.ite_none_right_eq_some.mp h
    exact exec_loadRegs_beyond hbeyond
  | _ => cases h

/-- Where the table names no fault, the instruction leaves the status as it was. -/
theorem exec_of_not_tabledFault (h : tabledFault i s = none) : ∃ t, exec i s = .next t ∧ t.status = s.status := by
  cases i with
  | ret =>
    have hused := not_of_row_eq_none h
    exact ⟨_, exec_ret_used (by omega), rfl⟩
  | call nnn =>
    have hroom := not_of_row_eq_none h
    exact ⟨_, exec_call_room nnn (by omega), rfl⟩
  | skp | sknp =>
    have hnamed := not_of_row_eq_none h
    exact ⟨_, skipIfKey_ok s (by omega), rfl⟩
  | drw x y n =>
    have hwithin := not_of_row_eq_none h
    obtain ⟨d, writes⟩ := drawAt_writes x y n s
    exact ⟨_, exec_drw_within (by omega), writes.status⟩
  | ldB x => exact ⟨_, exec_ldB_within (Nat.not_lt.mp (not_of_row_eq_none h)), rfl⟩
  | storeRegs x => exact ⟨_, exec_storeRegs_within (Nat.not_lt.mp (not_of_row_eq_none h)), rfl⟩
  | loadRegs x => exact ⟨_, exec_loadRegs_within (Nat.not_lt.mp (not_of_row_eq_none h)), rfl⟩
  | ldVxK x =>
    cases hkey : s.lowestKey with
    | some k => exact ⟨_, exec_ldVxK_pressed x hkey, rfl⟩
    | none => exact ⟨s, exec_ldVxK_none x hkey, rfl⟩
  | addReg x y => exact ⟨_, rfl, ((((WritesRegisters.refl s).setReg x _).setReg VF _).resolveAlias _ x).status⟩
  | sub x y => exact ⟨_, rfl, ((WritesRegisters.subSwapping s x y).resolveAlias _ x).status⟩
  | shr | subn | shl => exact ⟨_, rfl, ((WritesRegisters.flagThenReg s _ _ _).resolveAlias _ _).status⟩
  | _ => exact ⟨_, rfl, rfl⟩

/-! ## Faults change the status alone (R201) -/

/-- A step of a running core that ends halted took its fault and changed nothing else, beside the record of the step. -/
theorem StepEnds.eq_halt (h : StepEnds s t) (hs : s.status = .running) (hf : t.status = .halted f) :
    t = s.stepped.halt f := by
  cases h with
  | halted g hg => exact nomatch hs.symm.trans hg
  | faulted g =>
    obtain rfl : g = f := Status.halted.inj hf
    rfl
  | stalled => exact nomatch hs.symm.trans hf
  | ran _ _ _ _ ends =>
    rcases ends.status_or_halt with hrun | ⟨g, rfl⟩
    · exact nomatch hs.symm.trans (hrun.symm.trans hf)
    · obtain rfl : g = f := Status.halted.inj hf
      rfl

/-! ## The host's operations -/

theorem hostCall_keyDown {k : Nat} (h : k < 16) (s : State) :
    hostCall (.keyDown k) s = .next (.done, s.setKey ⟨k, h⟩ true) := dif_pos h

theorem hostCall_keyUp {k : Nat} (h : k < 16) (s : State) :
    hostCall (.keyUp k) s = .next (.done, s.setKey ⟨k, h⟩ false) := dif_pos h

/-- A load changes memory and the record of it, and after it the invariant says nothing of zeros behind the font. -/
theorem State.Inv.withImage (h : s.Inv) (hfresh : s.stage = .fresh) (image : List Byte) : (s.withImage image).Inv := by
  obtain ⟨hmem, hpc, hstack, hcreated, -⟩ := h
  have hcreated : s.AsCreated := hcreated (by rw [hfresh]; nofun)
  exact ⟨Memory.wf_writeBytes 0x200 image hmem, hpc, hstack, fun _ => hcreated, nofun⟩

/-- The draw flag is clear before the first step, so taking it keeps the state as created. -/
theorem State.Inv.clearDrawFlag (h : s.Inv) : s.clearDrawFlag.Inv := by
  obtain ⟨hmem, hpc, hstack, hcreated, hzero⟩ := h
  refine ⟨hmem, hpc, hstack, fun hstage => ?_, hzero⟩
  obtain ⟨hreg, hI, hpc₀, hslots, hSP, hDT, hST, hpixel, -, hstatus⟩ := hcreated hstage
  exact ⟨hreg, hI, hpc₀, hslots, hSP, hDT, hST, hpixel, rfl, hstatus⟩

/-- The invariant says nothing of the keys. -/
theorem State.Inv.setKey (h : s.Inv) (k : Fin 16) (b : Bool) : (s.setKey k b).Inv := h

end Sys2Proof.Machine

/-! ## The obligations -/

namespace Sys2Proof.Proofs

open Machine

/-- Settles O15: a halt outside `exec` and a fault inside it both change the status alone, and no other end of a step
halts a running core. -/
theorem faultsArePrecise : Obligations.FaultsArePrecise :=
  fun _ _ _ hs hstep hf => (stepEnds_of_step hstep).eq_halt hs hf

/-- Settles O16, row by row of the table. -/
theorem instructionsFaultAsTabulated : Obligations.InstructionsFaultAsTabulated := by
  intro i s
  split
  · next h => exact exec_of_tabledFault h
  · next h => exact exec_of_not_tabledFault h

/-- Settles O56: a step keeps the invariant (O18), and what the other operations can leave keeps it part by part. -/
theorem hostActionsKeepTheInvariant : Obligations.HostActionsKeepTheInvariant := by
  intro c s t r hs h
  obtain ⟨-, hstep⟩ | ⟨k, b, rfl⟩ | rfl | ⟨image, hfresh, -, rfl⟩ | rfl := hostCall_cases h
  · exact stepKeepsTheInvariant s t hs hstep
  · exact hs.setKey k b
  · exact hs.clearDrawFlag
  · exact hs.withImage hfresh image
  · exact hs

/-- Settles O53: the two key operations write one key or are refused; the other two are their definitions. -/
theorem hostKeysDisplayAndFlag : Obligations.HostKeysDisplayAndFlag := by
  intro s k
  refine ⟨fun h => ⟨_, _, hostCall_keyDown h s, hostCall_keyUp h s, fun j => ?_, fun j => ?_, rfl, rfl⟩,
    fun hbad => ⟨dif_neg (by omega), dif_neg (by omega)⟩, rfl, rfl⟩
  · rw [State.setKey_keyDown, Bool.if_true_left]
  · rw [State.setKey_keyDown, Bool.if_false_left]

end Sys2Proof.Proofs
end

section
/-! PROOF. The family 70_reset_and_hazards: what a load copies, when it has a move, and a core without a program. -/

namespace Sys2Proof.Machine

variable {s t : State} {r : HostReply}

/-! ## The record of loads and steps (R246, log 26) -/

/-- A halted core stays as it is (R71); any other end of a step records that it was taken. -/
theorem StepEnds.stage_cases (h : StepEnds s t) : ((∃ f, s.status = .halted f) ∧ t = s) ∨ t.stage = .stepped := by
  cases h with
  | halted f hs => exact .inl ⟨⟨f, hs⟩, rfl⟩
  | ran _ _ _ _ ends => exact .inr ends.stage_eq
  | _ => exact .inr rfl

/-! ## load_program, case by case (R243 to R247) -/

theorem loadProgram_unobtained (h : s.stage = .fresh) :
    hostCall (.loadProgram none) s = .next (.loaded .ioFailure, s) := if_pos h

theorem loadProgram_tooLarge {image : List Byte} (h : s.stage = .fresh) (hlen : 3584 < image.length) :
    hostCall (.loadProgram (some image)) s = .next (.loaded .programTooLarge, s) :=
  (if_pos h).trans (if_pos hlen)

theorem loadProgram_ok {image : List Byte} (h : s.stage = .fresh) (hlen : image.length ≤ 3584) :
    hostCall (.loadProgram (some image)) s = .next (.loaded .ok, s.withImage image) :=
  (if_pos h).trans (if_neg (Nat.not_lt.mpr hlen))

theorem loadProgram_refused (image : Option (List Byte)) (h : s.stage ≠ .fresh) :
    hostCall (.loadProgram image) s = .refused .loadNotOnFreshState := if_neg h

/-- A load on the fresh state succeeds and is recorded, or fails and changes nothing. -/
theorem loadProgram_of_fresh (image : Option (List Byte)) (h : s.stage = .fresh) :
    ∃ r t, hostCall (.loadProgram image) s = .next (r, t) ∧
      (r = .loaded .ok ∧ t.stage = .loaded ∨ r ≠ .loaded .ok ∧ t = s) := by
  cases image with
  | none => exact ⟨_, _, loadProgram_unobtained h, .inr ⟨by decide, rfl⟩⟩
  | some image =>
    rcases Nat.lt_or_ge 3584 image.length with hlen | hlen
    · exact ⟨_, _, loadProgram_tooLarge h hlen, .inr ⟨by decide, rfl⟩⟩
    · exact ⟨_, _, loadProgram_ok h hlen, .inl ⟨rfl, rfl⟩⟩

/-- A load has a move on the fresh state alone. -/
theorem fresh_of_loadProgram {image : Option (List Byte)} (h : hostCall (.loadProgram image) s = .next (r, t)) :
    s.stage = .fresh :=
  by_contra fun hstage => nomatch (loadProgram_refused image hstage).symm.trans h

theorem not_fresh_of_refused {image : Option (List Byte)}
    (h : hostCall (.loadProgram image) s = .refused .loadNotOnFreshState) : s.stage ≠ .fresh := by
  intro hfresh
  obtain ⟨r, t, hload, -⟩ := loadProgram_of_fresh image hfresh
  exact nomatch h.symm.trans hload

/-- A load that has a move succeeds and is recorded, or fails and changes nothing. -/
theorem loadProgram_cases {image : Option (List Byte)} (h : hostCall (.loadProgram image) s = .next (r, t)) :
    r = .loaded .ok ∧ t.stage = .loaded ∨ r ≠ .loaded .ok ∧ t = s := by
  obtain ⟨r', t', hload, hcases⟩ := loadProgram_of_fresh image (fresh_of_loadProgram h)
  cases hload.symm.trans h
  exact hcases

/-- The key operations leave the record of loads and steps alone. -/
theorem setKeyCall_stage {k : Nat} {b : Bool} (h : setKeyCall k b s = .next (r, t)) : t.stage = s.stage := by
  unfold setKeyCall at h
  split at h
  · cases h; rfl
  · cases h

/-- Only a step and a load that succeeded write the record of loads and steps. -/
theorem hostCall_stage_cases {c : HostCall} (h : hostCall c s = .next (r, t)) :
    c = .step ∨ (r = .loaded .ok ∧ t.stage = .loaded) ∨ t.stage = s.stage := by
  cases c with
  | step => exact .inl rfl
  | loadProgram image =>
    rcases loadProgram_cases h with hok | ⟨-, rfl⟩
    · exact .inr (.inl hok)
    · exact .inr (.inr rfl)
  | keyDown k => exact .inr (.inr (setKeyCall_stage h))
  | keyUp k => exact .inr (.inr (setKeyCall_stage h))
  | display => cases h; exact .inr (.inr rfl)
  | takeDrawFlag => cases h; exact .inr (.inr rfl)

/-- No host operation makes the state fresh again. -/
theorem not_fresh_of_hostCall {c : HostCall} (hs : s.stage ≠ .fresh) (h : hostCall c s = .next (r, t)) :
    t.stage ≠ .fresh := by
  obtain ⟨-, hstep⟩ | ⟨k, b, rfl⟩ | rfl | ⟨image, -, -, rfl⟩ | rfl := hostCall_cases h
  · rcases (stepEnds_of_step hstep).stage_cases with ⟨-, rfl⟩ | hstage
    · exact hs
    · exact ne_of_eq_of_ne hstage nofun
  · exact hs
  · exact hs
  · nofun
  · exact hs

/-! ## The image in memory (R242, R243) -/

theorem State.withImage_byteAt_of_lt (s : State) {image : List Byte} (hlen : image.length ≤ 3584) {i : Nat}
    (hi : i < image.length) : some ((s.withImage image).byteAt (0x200 + i)) = image[i]? := by
  have hbyte := List.getElem?_eq_getElem hi
  rw [hbyte]
  exact congrArg some (s.storeBytes_byteAt_of_getElem? (by omega) hbyte)

theorem State.withImage_byteAt_outside (s : State) {image : List Byte} (hlen : image.length ≤ 3584) {a : Nat}
    (ha : a < 0x200 ∨ 0x200 + image.length ≤ a) : (s.withImage image).byteAt a = s.byteAt a :=
  s.storeBytes_byteAt_outside (by omega) (by omega)

/-! ## A core without a program (R248) -/

/-- At creation the word at pc, 0x200, is 0. -/
theorem State.create_atWord (p : Params) (font : List Byte) : (create p font).AtWord 0x0000 := by
  have hentry : Creation.entry.toNat ≤ 4094 := by decide
  refine ⟨rfl, hentry, ?_⟩
  have hbyte {a : Nat} (ha : 0x50 ≤ a) := create_byteAt_behind_font p font ha
  show wordOfBytes ((create p font).byteAt 0x200) ((create p font).byteAt 0x201) = 0
  rw [hbyte (by decide), hbyte (by decide)]
  rfl

end Sys2Proof.Machine

/-! ## The obligations -/

namespace Sys2Proof.Proofs

open Machine

/-- Settles O54: a load copies the bytes over memory and writes nothing else; the zeros beyond the image and the values
of creation are those the invariant gives a fresh state. -/
theorem loaderContract : Obligations.LoaderContract := by
  intro s image hfresh
  refine ⟨loadProgram_unobtained hfresh, loadProgram_tooLarge hfresh, fun hlen => ?_⟩
  refine ⟨_, loadProgram_ok hfresh hlen, fun i hi => s.withImage_byteAt_of_lt hlen hi,
    fun a ha => s.withImage_byteAt_outside hlen ha, fun hs => ?_, rfl⟩
  obtain ⟨-, -, -, hcreated, hzero⟩ := hs
  refine ⟨hcreated (ne_of_eq_of_ne hfresh nofun), fun a hbeyond ha => ?_⟩
  rw [s.withImage_byteAt_outside hlen (.inr hbeyond), hzero hfresh a (by omega) ha]

/-- Settles O55: a load has a move exactly on a fresh state, which a step of a running core and a load that succeeded
leave for good, and which no other operation changes. -/
theorem loadsOnlyBeforeTheFirstStep : Obligations.LoadsOnlyBeforeTheFirstStep := by
  refine ⟨fun _ _ => rfl, fun s image => ⟨fun ⟨r, t, h⟩ => fresh_of_loadProgram h, fun hfresh => ?_⟩,
    fun s t image hs h => loadProgram_refused image ?_, fun s t image later h => loadProgram_refused later ?_,
    fun c s t r image hrefused h => loadProgram_refused image (not_fresh_of_hostCall (not_fresh_of_refused hrefused) h),
    fun c s t r hfresh h hc hr => ?_⟩
  · obtain ⟨r, t, h, -⟩ := loadProgram_of_fresh image hfresh
    exact ⟨r, t, h⟩
  · rcases (stepEnds_of_step h).stage_cases with ⟨⟨f, hf⟩, -⟩ | hstage
    · exact nomatch hs.symm.trans hf
    · exact ne_of_eq_of_ne hstage nofun
  · rcases loadProgram_cases h with ⟨-, hstage⟩ | ⟨hne, -⟩
    · exact ne_of_eq_of_ne hstage nofun
    · exact absurd rfl hne
  · rcases hostCall_stage_cases h with hstep | ⟨hok, -⟩ | hstage
    · exact absurd hstep hc
    · exact absurd hok hr
    · exact hstage.trans hfresh

/-- Settles O52: the word at 0x200 is 0 whatever the font, and it is fatal-invalid (R83, R85). -/
theorem unloadedCoreHaltsAtOnce : Obligations.UnloadedCoreHaltsAtOnce :=
  fun p font => step_fatal (State.create_atWord p font) (by decide)

end Sys2Proof.Proofs
end
